-- ==== Sys2Proof/Word.lean ====
section
/-! DEFINITION. The machine's word types (00_scope.md R13, 10_state.md R30, R36): bytes, the 9-bit
program counter, and the index of one of the eight general registers. -/

namespace Sys2Proof

/-- `u8` of 00_scope.md R13: every register, memory cell, operand and output value. -/
abbrev Byte := BitVec 8

/-- `u9` of 00_scope.md R13, used only for the program counter (10_state.md R36). -/
abbrev Pc := BitVec 9

/-- The index of a general register, 0 to 7 (10_state.md R30). -/
abbrev Reg := Fin 8

end Sys2Proof
end

