-- ==== Sys2Proof/Machine/State.lean ====
section
/-! DEFINITION. The state of the CORE, all of it (10_state.md section 1), the reasons a step can stop, and the
state after reset (70_reset_and_hazards.md R232). -/

namespace Sys2Proof.Machine

/-- The run state (10_state.md R45, 40_execution_cycle.md R127). Faulted is the spec's hardware form of a fatal
error (decision D6, log 6). -/
inductive RunState where
  | running
  | halted
  | faulted
  deriving DecidableEq, Repr

/-- What the fault latch `err` holds (10_state.md R46, 60_exceptions.md R201): no fault, or one of the three
faults of the CORE. -/
inductive ErrKind where
  | none
  | addressError
  | decodeError
  | registerIndexError
  deriving DecidableEq, Repr

/-- Memory as data: the listed cells, addresses strictly rising, every unlisted cell reading as the fill byte
(`Memory.read`, `Memory.wf` in Machine/Ops.lean). -/
abbrev Memory := List Host.Cell

/-- The complete state of the CORE (10_state.md section 1). -/
structure State where
  /-- The general registers R0 to R7; index 7 is the stack pointer (R30, R31). -/
  regs : Vector Byte 8
  /-- The address of the next opcode (R36, R37); 9 bits, so that 0x100 is held without a wrap (R39). -/
  pc : Pc
  /-- The flag register: bit 0 is E, bits 7:1 are reserved (R40). -/
  fl : Byte
  /-- The run state (R45). -/
  run : RunState
  /-- The fault latch (R46). -/
  err : ErrKind
  /-- The one memory of 256 cells: program, data and stack (R50). -/
  mem : Memory
  /-- The values handed to the output sink, oldest first (R52). -/
  out : List Byte
  deriving DecidableEq, Repr

/-- Why the machine has no next state. None of these is a fault of the spec: AddressError, DecodeError and
RegisterIndexError are entered as a next state (`State.raise`). -/
inductive Fault where
  /-- Raised by `step` alone, when a step is asked for while `run` is Halted: no step is enabled there
  (40_execution_cycle.md R121). Safe: the machine does nothing then (log 7). -/
  | halted
  /-- Raised by `step` alone, when a step is asked for while `run` is Faulted: no step is enabled there
  (40_execution_cycle.md R121). Safe: the machine does nothing then (log 7). -/
  | faulted
  deriving DecidableEq, Repr

/-- Why an instruction has no meaning in this model. -/
inductive Refusal where
  /-- An arm of `exec` without a meaning; no arm answers it in this model. Safe: nothing is claimed. -/
  | notModelled (mnemonic : String)
  deriving DecidableEq, Repr

/-- The state after reset (70_reset_and_hazards.md R232), with the launch image of an empty program (R236): no
cell listed. R0 to R6 and `fl` are the spec's decisions D3 and D4 (logs 3, 4), SP, `pc` and `run` the source's
own values. -/
def State.reset : State where
  regs := #v[0x00, 0x00, 0x00, 0x00, 0x00, 0x00, 0x00, 0xF4]
  pc := 0x000
  fl := 0x00
  run := .running
  err := .none
  mem := []
  out := []

end Sys2Proof.Machine
end

