-- ==== Sys2Proof/Machine/Flags.lean ====
section
/-! DEFINITION. The flag register (10_state.md R40 to R42): its one defined bit E, how CMP sets it and what JEQ
and JNE read. -/

namespace Sys2Proof.Machine

/-- `fl[0]`: the equal flag E. Only this bit is tested (45_compare_and_jump.md R182). -/
def State.equal (s : State) : Bool := s.fl.getLsbD 0

/-- `fl[0] <- 1`, bits 7:1 unchanged (45_compare_and_jump.md R180). -/
def State.setEqual (s : State) : State := { s with fl := s.fl ||| 0x01 }

/-- What CMP does to the flags: E is set when the two values are equal and `fl` is unchanged otherwise; nothing
clears it (45_compare_and_jump.md R180, 90_conflicts.md C1). -/
def State.recordEquality (s : State) (p q : Byte) : State := if p = q then s.setEqual else s

end Sys2Proof.Machine
end

