-- ==== Sys2Proof/Config.lean ====
section
/-! DEFINITION. What an implementation fixes: the opcode bytes. Nine of the thirteen are named
parameters of the spec (00_scope.md R7, 30_encoding.md R97, decision D16). Their default values stand in
`Sys2Proof.opcodes` (Decode.lean); what a choice of them must meet is `OpcodeMap.Legal` (WellFormed.lean).
The spec leaves no value free (00_scope.md R11: no oracle and no draw), so there is no free value here. -/

namespace Sys2Proof

/-- The opcode byte of each of the 13 instructions, in the order of 30_encoding.md R95. `hlt`, `ldi`, `prn`
and `mul` are fixed by the source (R96); the other nine are the parameters OPC_ADD to OPC_JNE (R97). -/
structure OpcodeMap where
  hlt  : Byte
  ldi  : Byte
  prn  : Byte
  mul  : Byte
  add  : Byte
  push : Byte
  pop  : Byte
  call : Byte
  ret  : Byte
  cmp  : Byte
  jmp  : Byte
  jeq  : Byte
  jne  : Byte
  deriving DecidableEq, Repr

end Sys2Proof
end

