-- ==== Sys2Proof/Syntax.lean ====
section
/-! DEFINITION. The instruction set as syntax (30_encoding.md R93, R94, R95) and the three bytes a fetch
delivers (40_execution_cycle.md R123). -/

namespace Sys2Proof

/-- The 13 instructions (00_scope.md R2), one constructor per row of the opcode map, in its order.
A register operand is a `Reg`, so an instruction with an index above 7 cannot be written down: such bytes are
refused in the decode phase (30_encoding.md R102), never by an instruction's meaning (60_exceptions.md R204). -/
inductive Instr where
  | hlt
  | ldi  (a : Reg) (imm : Byte)
  | prn  (a : Reg)
  | mul  (a b : Reg)
  | add  (a b : Reg)
  | push (a : Reg)
  | pop  (a : Reg)
  | call (a : Reg)
  | ret
  | cmp  (a b : Reg)
  | jmp  (a : Reg)
  | jeq  (a : Reg)
  | jne  (a : Reg)
  deriving DecidableEq, Repr

/-- The name of an instruction without its operands: what an opcode byte selects (30_encoding.md R92). -/
inductive Mnemonic where
  | hlt | ldi | prn | mul | add | push | pop | call | ret | cmp | jmp | jeq | jne
  deriving DecidableEq, Repr

/-- The 13 mnemonics in the order of 30_encoding.md R95. -/
def Mnemonic.all : List Mnemonic :=
  [.hlt, .ldi, .prn, .mul, .add, .push, .pop, .call, .ret, .cmp, .jmp, .jeq, .jne]

/-- The mnemonic of an instruction. -/
def Instr.mnemonic : Instr → Mnemonic
  | .hlt => .hlt
  | .ldi _ _ => .ldi
  | .prn _ => .prn
  | .mul _ _ => .mul
  | .add _ _ => .add
  | .push _ => .push
  | .pop _ => .pop
  | .call _ => .call
  | .ret => .ret
  | .cmp _ _ => .cmp
  | .jmp _ => .jmp
  | .jeq _ => .jeq
  | .jne _ => .jne

/-- The byte an opcode map gives a mnemonic. -/
def OpcodeMap.byte (m : OpcodeMap) : Mnemonic → Byte
  | .hlt => m.hlt
  | .ldi => m.ldi
  | .prn => m.prn
  | .mul => m.mul
  | .add => m.add
  | .push => m.push
  | .pop => m.pop
  | .call => m.call
  | .ret => m.ret
  | .cmp => m.cmp
  | .jmp => m.jmp
  | .jeq => m.jeq
  | .jne => m.jne

/-- What an operand byte is (30_encoding.md R94): not part of the instruction, a register index, or an
8-bit immediate. -/
inductive OperandKind where
  | none
  | reg
  | imm8
  deriving DecidableEq, Repr

/-- The three bytes latched by a fetch (40_execution_cycle.md R123): opcode, operand_a, operand_b. They live
inside one step only (10_state.md R53). -/
structure Fetched where
  ir  : Byte
  opa : Byte
  opb : Byte
  deriving DecidableEq, Repr

end Sys2Proof
end

