-- ==== Sys2Proof/WellFormed.lean ====
section
/-! DEFINITION. The checks the spec puts on opcode maps and on fetched bytes, stated from its tables and apart
from the decoder: the opcode map's columns (30_encoding.md R95), the constraints on the parameter opcodes
(R97, R98), and what bytes are an instruction (R99, R102). Every term of `Instr` is well formed by its types. -/

namespace Sys2Proof

/-- Column "a" of 30_encoding.md R95. -/
def Mnemonic.kindA : Mnemonic → OperandKind
  | .hlt => .none
  | .ldi => .reg
  | .prn => .reg
  | .mul => .reg
  | .add => .reg
  | .push => .reg
  | .pop => .reg
  | .call => .reg
  | .ret => .none
  | .cmp => .reg
  | .jmp => .reg
  | .jeq => .reg
  | .jne => .reg

/-- Column "b" of 30_encoding.md R95. -/
def Mnemonic.kindB : Mnemonic → OperandKind
  | .hlt => .none
  | .ldi => .imm8
  | .prn => .none
  | .mul => .reg
  | .add => .reg
  | .push => .none
  | .pop => .none
  | .call => .none
  | .ret => .none
  | .cmp => .reg
  | .jmp => .none
  | .jeq => .none
  | .jne => .none

/-- How many operand bytes the instruction has: column "n" of 30_encoding.md R95. -/
def Mnemonic.operands : Mnemonic → Nat
  | .hlt => 0
  | .ldi => 2
  | .prn => 1
  | .mul => 2
  | .add => 2
  | .push => 1
  | .pop => 1
  | .call => 1
  | .ret => 0
  | .cmp => 2
  | .jmp => 1
  | .jeq => 1
  | .jne => 1

/-- Whether the instruction writes `pc` itself: column "sets_pc" of 30_encoding.md R95. -/
def Mnemonic.writesPc : Mnemonic → Bool
  | .hlt => false
  | .ldi => false
  | .prn => false
  | .mul => false
  | .add => false
  | .push => false
  | .pop => false
  | .call => true
  | .ret => true
  | .cmp => false
  | .jmp => true
  | .jeq => true
  | .jne => true

/-- The four opcode bytes the source gives (30_encoding.md R96). -/
abbrev OpcodeMap.SourceBytes (m : OpcodeMap) : Prop :=
  m.hlt = 0x01 ∧ m.ldi = 0x82 ∧ m.prn = 0x47 ∧ m.mul = 0xA2

/-- The 13 opcode bytes are pairwise distinct (30_encoding.md R97). -/
abbrev OpcodeMap.Distinct (m : OpcodeMap) : Prop :=
  (Mnemonic.all.map m.byte).Nodup

/-- Each opcode byte has its row's bits 7:6 and bit 4 (30_encoding.md R98). -/
abbrev OpcodeMap.BitsFit (m : OpcodeMap) : Prop :=
  ∀ k ∈ Mnemonic.all, (m.byte k).toNat / 64 = k.operands ∧ (m.byte k).toNat.testBit 4 = k.writesPc

/-- What a model must require of the opcode bytes; with it, every other rule holds for any choice of the nine
parameters (30_encoding.md R97). -/
abbrev OpcodeMap.Legal (m : OpcodeMap) : Prop :=
  m.SourceBytes ∧ m.Distinct ∧ m.BitsFit

/-- The fetched bytes are an instruction under the map `m`: the opcode byte is one of the 13
(30_encoding.md R99), and every operand byte the row marks "reg" is at most 7 (R102). -/
abbrev Fetched.WellFormed (m : OpcodeMap) (f : Fetched) : Prop :=
  ∃ k ∈ Mnemonic.all, f.ir = m.byte k ∧ (k.kindA = .reg → f.opa.toNat ≤ 7) ∧
    (k.kindB = .reg → f.opb.toNat ≤ 7)

end Sys2Proof
end

