-- ==== Sys2Proof/Decode.lean ====
section
/-! DEFINITION. Decoding (30_encoding.md, 40_execution_cycle.md R124): the opcode bytes, the fields computed from
an opcode byte, the decoder, total on any three bytes and rejecting by name, and the encoder. -/

namespace Sys2Proof

/-- The opcode bytes of this machine (30_encoding.md R95). HLT, LDI, PRN and MUL are the source's (R96); the
other nine are the default values of the parameters of R97.
UNVERIFIED, unsafe: the nine defaults are marked by the spec as general knowledge (log 2). -/
def opcodes : OpcodeMap where
  hlt  := 0x01
  ldi  := 0x82
  prn  := 0x47
  mul  := 0xA2
  add  := 0xA0
  push := 0x45
  pop  := 0x46
  call := 0x50
  ret  := 0x11
  cmp  := 0xA7
  jmp  := 0x54
  jeq  := 0x55
  jne  := 0x56

/-- `n = ir[7:6]`, computed from the bits of any byte (30_encoding.md R91, R92). -/
def operandCount (ir : Byte) : Nat := (ir >>> 6).toNat

/-- `sets_pc = ir[4]` (30_encoding.md R91). -/
def setsPc (ir : Byte) : Bool := ir.getLsbD 4

/-- Why bytes are no instruction: the two rejections of the decode phase (60_exceptions.md R201). -/
inductive Reject where
  /-- The opcode byte is not one of the 13 (30_encoding.md R99): DecodeError. -/
  | unknownOpcode (ir : Byte)
  /-- A register-index operand is above 7 (30_encoding.md R102): RegisterIndexError. -/
  | registerIndex (v : Byte)
  deriving DecidableEq, Repr

/-- The instruction a byte selects: the whole byte is matched (30_encoding.md R92). -/
def lookup (m : OpcodeMap) (ir : Byte) : Option Mnemonic :=
  Mnemonic.all.find? fun k => m.byte k == ir

/-- `regidx(v)` of 30_encoding.md R102: `v` if it is at most 7, and otherwise the rejection. -/
def regidx (v : Byte) : Except Reject Reg :=
  if h : v.toNat < 8 then .ok ⟨v.toNat, h⟩ else .error (.registerIndex v)

/-- The operands of a known instruction, from the two operand bytes; every operand position marked "reg" in
30_encoding.md R95 goes through `regidx`, and bytes that are not part of the instruction are not looked at
(R101). -/
def operandsOf (opa opb : Byte) : Mnemonic → Except Reject Instr
  | .hlt => .ok .hlt
  | .ldi => do let a ← regidx opa; return .ldi a opb
  | .prn => do let a ← regidx opa; return .prn a
  | .mul => do let a ← regidx opa; let b ← regidx opb; return .mul a b
  | .add => do let a ← regidx opa; let b ← regidx opb; return .add a b
  | .push => do let a ← regidx opa; return .push a
  | .pop => do let a ← regidx opa; return .pop a
  | .call => do let a ← regidx opa; return .call a
  | .ret => .ok .ret
  | .cmp => do let a ← regidx opa; let b ← regidx opb; return .cmp a b
  | .jmp => do let a ← regidx opa; return .jmp a
  | .jeq => do let a ← regidx opa; return .jeq a
  | .jne => do let a ← regidx opa; return .jne a

/-- The decode phase (40_execution_cycle.md R122, R124): match the opcode, then check the register indices. -/
def decode (m : OpcodeMap) (f : Fetched) : Except Reject Instr :=
  match lookup m f.ir with
  | none => .error (.unknownOpcode f.ir)
  | some k => operandsOf f.opa f.opb k

/-- A register index as an operand byte (30_encoding.md R94). -/
def regByte (r : Reg) : Byte := BitVec.ofNat 8 r.val

/-- The bytes of an instruction, opcode first, at ascending addresses (30_encoding.md R90, R93, R95). -/
def encode (m : OpcodeMap) : Instr → List Byte
  | .hlt => [m.hlt]
  | .ldi a imm => [m.ldi, regByte a, imm]
  | .prn a => [m.prn, regByte a]
  | .mul a b => [m.mul, regByte a, regByte b]
  | .add a b => [m.add, regByte a, regByte b]
  | .push a => [m.push, regByte a]
  | .pop a => [m.pop, regByte a]
  | .call a => [m.call, regByte a]
  | .ret => [m.ret]
  | .cmp a b => [m.cmp, regByte a, regByte b]
  | .jmp a => [m.jmp, regByte a]
  | .jeq a => [m.jeq, regByte a]
  | .jne a => [m.jne, regByte a]

/-- The first three of a list of bytes as a fetch sees them; a missing byte is 0. -/
def Fetched.ofBytes (bs : List Byte) : Fetched :=
  ⟨bs.getD 0 0, bs.getD 1 0, bs.getD 2 0⟩

/-- The bytes of a table word `w` of `nbits` bits: bit 0 is the least significant bit of the first byte, the
second byte is bits 15..8, the third bits 23..16, and every bit above `nbits` is 0. -/
def tableBytes (nbits w : Nat) : List Byte :=
  let v := w % 2 ^ nbits
  [BitVec.ofNat 8 v, BitVec.ofNat 8 (v / 2 ^ 8), BitVec.ofNat 8 (v / 2 ^ 16)]

/-- The instruction this machine's decoder reads from a table word; `none` where it refuses. -/
def decodeTableWord (nbits w : Nat) : Option Instr :=
  match decode opcodes (Fetched.ofBytes (tableBytes nbits w)) with
  | .ok i => some i
  | .error _ => none

end Sys2Proof
end

