-- ==== Sys2Proof/Machine/Operands.lean ====
section
/-! DEFINITION. The operand forms: the general registers, the stack pointer, the program counter and its
targets, and the ALU that works on two register operands (10_state.md R30 to R39, 42_alu.md R150). -/

namespace Sys2Proof.Machine

/-- `x[i]`: the value of general register `i` (10_state.md R30). -/
def State.x (s : State) (i : Reg) : Byte := s.regs[i]

/-- `x[i] <- v`: no register is hard-wired or banked (10_state.md R30). -/
def State.setX (s : State) (i : Reg) (v : Byte) : State := { s with regs := s.regs.set i.val v i.isLt }

/-- SP_INDEX (00_scope.md R6, 10_state.md R31). -/
def spIndex : Reg := 7

/-- `SP`: another name of `x[7]` (10_state.md R31). -/
def State.sp (s : State) : Byte := s.x spIndex

/-- `SP <- v`. -/
def State.setSp (s : State) (v : Byte) : State := s.setX spIndex v

/-- `pc <- target`. -/
def State.setPc (s : State) (p : Pc) : State := { s with pc := p }

/-- `zext_9(v)` (00_scope.md R13): a byte used as a control-transfer target (45_compare_and_jump.md R185). -/
def zext9 (v : Byte) : Pc := v.setWidth 9

/-- `pc + n + 1`: the address after the instruction whose opcode byte is `ir` (30_encoding.md R91,
40_execution_cycle.md R125). At a fetchable `pc` the sum is at most 0x100 and does not wrap; elsewhere it is
taken in 9 bits (DEDUCED, safe: no step gets there, log 8). -/
def State.nextPc (s : State) (ir : Byte) : Pc := s.pc + BitVec.ofNat 9 (operandCount ir + 1)

/-- The ALU's operation select: a closed two-value signal (42_alu.md R150, 60_exceptions.md R203). -/
inductive AluOp where
  | add
  | mul
  deriving DecidableEq, Repr

/-- The arithmetic of the ALU: unsigned and modulo 256, with no flag (42_alu.md R150, R153). -/
def AluOp.eval : AluOp → Byte → Byte → Byte
  | .add, p, q => p + q
  | .mul, p, q => p * q

/-- `ALU(op, i, j)` of 42_alu.md R150: both registers are read before the write, and nothing but `x[i]` is
written. -/
def State.alu (s : State) (op : AluOp) (i j : Reg) : State := s.setX i (op.eval (s.x i) (s.x j))

end Sys2Proof.Machine
end

