-- ==== Sys2Proof/Machine/Ops.lean ====
section
/-! DEFINITION. The named operations every instruction is built from: the one memory (20_memory.md), taking a
fault (60_exceptions.md R206), the output (41_data_and_system.md R143), the stack primitives (43_stack.md) and
the program counter advance (40_execution_cycle.md R125). There is no return from a fault (60_exceptions.md
R208); what leaves Faulted is the host's reset (`State.hostReset`, Machine/HostPort.lean). -/

namespace Sys2Proof.Machine

/-- What a cell that nothing has written reads as: MEM_FILL (00_scope.md R7, 70_reset_and_hazards.md R236).
UNVERIFIED, unsafe: the spec's own decision D5 (log 5). -/
def Memory.fill : Byte := 0x00

/-- The number of cells: MEMSIZE (00_scope.md R6). -/
def memSize : Nat := 256

/-- The value of cell `a`. -/
def Memory.read : Memory → Nat → Byte
  | [], _ => Memory.fill
  | (b, v) :: m, a => if a = b then v else Memory.read m a

/-- The memory without an entry for `a`. -/
def Memory.unlist (m : Memory) (a : Nat) : Memory := m.filter fun c => c.1 != a

/-- An entry put in its place; the memory has none for `a`. -/
def Memory.enlist : Memory → Nat → Byte → Memory
  | [], a, v => [(a, v)]
  | (b, w) :: m, a, v => if a < b then (a, v) :: (b, w) :: m else (b, w) :: Memory.enlist m a v

/-- `mem[a] <- v`, keeping the canonical form: writing the fill byte unlists the cell. -/
def Memory.write (m : Memory) (a : Nat) (v : Byte) : Memory :=
  if v = Memory.fill then m.unlist a else (m.unlist a).enlist a v

/-- The canonical form: addresses strictly rising and inside the address space, no entry equal to the fill. -/
abbrev Memory.wf (m : Memory) : Prop :=
  m.Pairwise (fun c d => c.1 < d.1) ∧ ∀ c ∈ m, c.1 < memSize ∧ c.2 ≠ Memory.fill

/-- Memory replaced as a whole. -/
def State.setMem (s : State) (m : Memory) : State := { s with mem := m }

/-- `MemRead(addr, 1)` of 20_memory.md R61: the address is checked, never reduced; a read changes nothing (R66). -/
def State.memRead (s : State) (addr : Nat) : Except ErrKind Byte :=
  if addr < memSize then .ok (s.mem.read addr) else .error .addressError

/-- `MemWrite(addr, 1, v)` of 20_memory.md R62: the address is checked, and one cell changes. -/
def State.memWrite (s : State) (addr : Nat) (v : Byte) : Except ErrKind State :=
  if addr < memSize then .ok (s.setMem (s.mem.write addr v)) else .error .addressError

/-- Taking a fault (60_exceptions.md R206): `run <- Faulted; err <- kind`, and nothing else. It is applied to the
state before the step, since a step that raises has none of its other effects (00_scope.md R15). -/
def State.raise (s : State) (e : ErrKind) : State := { s with run := .faulted, err := e }

/-- `run <- Halted`, by HLT alone (40_execution_cycle.md R127). -/
def State.halt (s : State) : State := { s with run := .halted }

/-- `emit(v)` of 41_data_and_system.md R143: `v` is appended to `out`. -/
def State.emit (s : State) (v : Byte) : State := { s with out := s.out ++ [v] }

/-- `push(v)` of 43_stack.md R160: SP is decremented modulo 256, then `v` is stored at the new SP. -/
def State.push (s : State) (v : Byte) : Except ErrKind State :=
  let t := s.setSp (s.sp - 1)
  t.memWrite t.sp.toNat v

/-- `pop()` of 43_stack.md R161: the byte at the old SP, then SP is incremented modulo 256; memory keeps the
byte. -/
def State.pop (s : State) : Except ErrKind (Byte × State) := do
  let v ← s.memRead s.sp.toNat
  return (v, s.setSp (s.sp + 1))

/-- The program counter sequencer (40_execution_cycle.md R125): applied after the handler, from the opcode's
bits. -/
def State.advance (s : State) (ir : Byte) : State := if setsPc ir then s else s.setPc (s.nextPc ir)

/-- The end of a step: the handler's result `h` with the advance for the opcode `ir`; a handler that raised
would leave the state `s` before the step with the fault taken (40_execution_cycle.md R122). No handler raises
(60_exceptions.md R204). -/
def State.retire (s : State) (ir : Byte) (h : Except ErrKind State) : Host.Outcome State Fault Refusal :=
  match h with
  | .ok t => .next (t.advance ir)
  | .error e => .next (s.raise e)

end Sys2Proof.Machine
end

