-- ==== Sys2Proof/Machine/Alu.lean ====
section
/-! DEFINITION. MUL, ADD (42_alu.md). -/

namespace Sys2Proof.Machine

/-- MUL a, b (R151): `x[a] <- (x[a] * x[b]) mod 256`. -/
def execMul (a b : Reg) (s : State) : Host.Outcome State Fault Refusal :=
  s.retire opcodes.mul (.ok (s.alu .mul a b))

/-- ADD a, b (R152): `x[a] <- (x[a] + x[b]) mod 256`. -/
def execAdd (a b : Reg) (s : State) : Host.Outcome State Fault Refusal :=
  s.retire opcodes.add (.ok (s.alu .add a b))

end Sys2Proof.Machine
end

