-- ==== Sys2Proof/Machine/CompareJump.lean ====
section
/-! DEFINITION. CMP, JMP, JEQ, JNE (45_compare_and_jump.md). -/

namespace Sys2Proof.Machine

/-- CMP a, b (R180): E is set if the two registers are equal; `fl` is unchanged if they are not. -/
def execCmp (a b : Reg) (s : State) : Host.Outcome State Fault Refusal :=
  s.retire opcodes.cmp (.ok (s.recordEquality (s.x a) (s.x b)))

/-- JMP a (R181): `pc <- x[a]`. -/
def execJmp (a : Reg) (s : State) : Host.Outcome State Fault Refusal :=
  s.retire opcodes.jmp (.ok (s.setPc (zext9 (s.x a))))

/-- JEQ a (R182): taken if E is set; the handler itself moves past the instruction if not. -/
def execJeq (a : Reg) (s : State) : Host.Outcome State Fault Refusal :=
  s.retire opcodes.jeq (.ok (s.setPc (if s.equal then zext9 (s.x a) else s.nextPc opcodes.jeq)))

/-- JNE a (R183): taken if E is clear; the handler itself moves past the instruction if not. -/
def execJne (a : Reg) (s : State) : Host.Outcome State Fault Refusal :=
  s.retire opcodes.jne (.ok (s.setPc (if s.equal then s.nextPc opcodes.jne else zext9 (s.x a))))

end Sys2Proof.Machine
end

