-- ==== Sys2Proof/Machine/Stack.lean ====
section
/-! DEFINITION. PUSH, POP (43_stack.md). -/

namespace Sys2Proof.Machine

/-- PUSH a (R162): the value is read before SP changes, so PUSH R7 stores the old SP (R163). -/
def execPush (a : Reg) (s : State) : Host.Outcome State Fault Refusal :=
  s.retire opcodes.push (s.push (s.x a))

/-- POP a (R164): the register is written after SP was incremented, so POP R7 leaves the popped byte in SP
(R165). -/
def execPop (a : Reg) (s : State) : Host.Outcome State Fault Refusal :=
  s.retire opcodes.pop do
    let (v, t) ← s.pop
    return t.setX a v

end Sys2Proof.Machine
end

