-- ==== Sys2Proof/Machine/Subroutine.lean ====
section
/-! DEFINITION. CALL, RET (44_subroutine.md). -/

namespace Sys2Proof.Machine

/-- The return address CALL pushes: `pc + n + 1` with the decoded n, as a byte (R170). At a fetchable `pc` it is
at most 0xFF, so nothing is cut off (elsewhere: DEDUCED, safe, log 8). -/
def State.returnAddress (s : State) : Byte := (s.nextPc opcodes.call).setWidth 8

/-- CALL a (R170): the return address is pushed, then the target register is read, so CALL R7 jumps to the
decremented SP (R171). -/
def execCall (a : Reg) (s : State) : Host.Outcome State Fault Refusal :=
  s.retire opcodes.call do
    let t ← s.push s.returnAddress
    return t.setPc (zext9 (t.x a))

/-- RET (R172): `pc <- pop()`. -/
def execRet (s : State) : Host.Outcome State Fault Refusal :=
  s.retire opcodes.ret do
    let (v, t) ← s.pop
    return t.setPc (zext9 v)

end Sys2Proof.Machine
end

