-- ==== Sys2Proof/Machine/System.lean ====
section
/-! DEFINITION. HLT, LDI, PRN (41_data_and_system.md). -/

namespace Sys2Proof.Machine

/-- HLT (R140): `run <- Halted`; `pc` still advances by 1 (40_execution_cycle.md R126). -/
def execHlt (s : State) : Host.Outcome State Fault Refusal :=
  s.retire opcodes.hlt (.ok s.halt)

/-- LDI a, imm (R141): `x[a] <- imm`. -/
def execLdi (a : Reg) (imm : Byte) (s : State) : Host.Outcome State Fault Refusal :=
  s.retire opcodes.ldi (.ok (s.setX a imm))

/-- PRN a (R142): `emit(x[a])`. -/
def execPrn (a : Reg) (s : State) : Host.Outcome State Fault Refusal :=
  s.retire opcodes.prn (.ok (s.emit (s.x a)))

end Sys2Proof.Machine
end

