-- ==== Sys2Proof/Machine/Fetch.lean ====
section
/-! DEFINITION. Fetching an instruction (40_execution_cycle.md R123), what fault a rejected decode is, and the
placing of bytes in memory. -/

namespace Sys2Proof.Machine

/-- The fetch phase (40_execution_cycle.md R123): three reads at `pc`, `pc + 1`, `pc + 2`, for every
instruction, at addresses that are not wrapped. -/
def State.fetch (s : State) : Except ErrKind Fetched := do
  let ir ← s.memRead s.pc.toNat
  let opa ← s.memRead (s.pc.toNat + 1)
  let opb ← s.memRead (s.pc.toNat + 2)
  return ⟨ir, opa, opb⟩

/-- The fault a rejection of the decode phase raises (60_exceptions.md R201). -/
def errOf : Reject → ErrKind
  | .unknownOpcode _ => .decodeError
  | .registerIndex _ => .registerIndexError

/-- `mem[a], mem[a+1], …` set to the bytes of a list; bytes past the last cell are left out. -/
def Memory.place (m : Memory) (a : Nat) : List Byte → Memory
  | [] => m
  | b :: bs => if a < memSize then Memory.place (m.write a b) (a + 1) bs else m

/-- A state in which the next step fetches: Running, at a fetchable `pc` (40_execution_cycle.md R121, R123). A
state that already is one is unchanged. -/
def State.readyToFetch (s : State) : State :=
  let t := if s.run = .running then s else { s with run := .running, err := .none }
  if t.pc.toNat ≤ 0xFD then t else t.setPc 0

end Sys2Proof.Machine
end

