-- ==== Sys2Proof/Machine/Step.lean ====
section
/-! DEFINITION. The step (40_execution_cycle.md R120 to R125) and the placing of an instruction where it fetches. -/

namespace Sys2Proof.Machine

/-- One step with the opcode bytes `m` (40_execution_cycle.md R122): fetch, decode, execute with the pc advance;
a fault of the first two is taken in the state before the step. No step is enabled in Halted or Faulted (R121). -/
def stepWith (m : OpcodeMap) (s : State) : Host.Outcome State Fault Refusal :=
  match s.run with
  | .halted => .fault .halted
  | .faulted => .fault .faulted
  | .running =>
    match s.fetch with
    | .error e => .next (s.raise e)
    | .ok f =>
      match decode m f with
      | .error r => .next (s.raise (errOf r))
      | .ok i => exec i s

/-- One step of this machine, with its opcode bytes. -/
def step (s : State) : Host.Outcome State Fault Refusal := stepWith opcodes s

/-- The state with the instruction of a table word stored where `step` fetches next. It stands for the loading
of a program from outside (70_reset_and_hazards.md R236; log 9). -/
def State.withFetchWord (s : State) (nbits w : Nat) : State :=
  let t := s.readyToFetch
  t.setMem (t.mem.place t.pc.toNat (tableBytes nbits w))

end Sys2Proof.Machine
end

