-- ==== Sys2Proof/Machine/HostPort.lean ====
section
/-! DEFINITION. What the host does to the machine and reads from it (00_scope.md R8, 70_reset_and_hazards.md
R230 to R240): the launch image, reset, the launch state, the inspection accessors and the report of a run.
Which of these the host may do when is `Session` (Machine/Session.lean). The OUT interface is the field `out` of State. -/

namespace Sys2Proof.Machine

/-- The memory of a launch (70_reset_and_hazards.md R236): the bytes from address 0, then the fill; no more
than 256 bytes are taken (R238). -/
def launchMemory (image : List Byte) : Memory := Memory.place [] 0 image

/-- Reset as the host applies it, in any state (70_reset_and_hazards.md R230): every register at its reset
value, `out` empty, memory unchanged (R231). It is no step. -/
def State.hostReset (s : State) : State := State.reset.setMem s.mem

/-- The launch state of a run (70_reset_and_hazards.md R235), the start of every run (R231). -/
def State.launch (image : List Byte) : State := State.reset.setMem (launchMemory image)

/-- What the host may select to inspect (70_reset_and_hazards.md R240). -/
inductive Selector where
  | reg (i : Reg)
  | cell (a : Byte)
  | pc
  | fl
  | run
  | err
  deriving DecidableEq, Repr

/-- What an inspection gives back. -/
inductive Inspected where
  | byte (v : Byte)
  | pc (p : Pc)
  | run (r : RunState)
  | err (e : ErrKind)
  deriving DecidableEq, Repr

/-- The read-only accessors (00_scope.md R8); the state is unchanged by construction. -/
def State.inspect (s : State) : Selector → Inspected
  | .reg i => .byte (s.x i)
  | .cell a => .byte (s.mem.read a.toNat)
  | .pc => .pc s.pc
  | .fl => .byte s.fl
  | .run => .run s.run
  | .err => .err s.err

/-- The fault codes (60_exceptions.md R201, the spec's own, decision D7). -/
def ErrKind.code : ErrKind → Nat
  | .none => 0
  | .addressError => 1
  | .decodeError => 2
  | .registerIndexError => 3

/-- The result of `run()` (60_exceptions.md R207, 40_execution_cycle.md R129): none while Running, success when
Halted, the latched fault when Faulted. -/
def State.report (s : State) : Option (Except ErrKind Unit) :=
  match s.run with
  | .running => .none
  | .halted => .some (.ok ())
  | .faulted => .some (.error s.err)

end Sys2Proof.Machine
end

