-- ==== Sys2Proof/Machine/Loader.lean ====
section
/-! DEFINITION. The external Program Loader's text form (30_encoding.md R104, 70_reset_and_hazards.md R237,
R238, 60_exceptions.md R202). It is outside the CORE (00_scope.md R5); no step uses it. -/

namespace Sys2Proof.Machine

/-- LoadError, raised by the loader before any step and with no code in `err` (60_exceptions.md R202). -/
inductive LoadError where
  /-- A token that is not a literal of exactly eight binary digits (70_reset_and_hazards.md R238 a). -/
  | badLiteral
  /-- A 257th literal (70_reset_and_hazards.md R238 b). -/
  | tooLong
  deriving DecidableEq, Repr

/-- The comment marker (PRESUMED by the spec itself, general knowledge G6; log 10). -/
def commentMark : Char := '#'

/-- A line without its comment and its surrounding blanks (70_reset_and_hazards.md R238 a). -/
def lineToken (line : List Char) : List Char :=
  let l := (line.takeWhile (· != commentMark)).dropWhile Char.isWhitespace
  (l.reverse.dropWhile Char.isWhitespace).reverse

/-- One binary digit. -/
def digit? (c : Char) : Option Nat :=
  if c = '0' then some 0 else if c = '1' then some 1 else none

/-- The value of binary digits, the first being the most significant (30_encoding.md R104). -/
def binaryValue? : Nat → List Char → Option Nat
  | acc, [] => some acc
  | acc, c :: cs => (digit? c).bind fun d => binaryValue? (2 * acc + d) cs

/-- A literal: exactly eight binary digits. -/
def literal? (tok : List Char) : Option Byte :=
  if tok.length = 8 then (binaryValue? 0 tok).map (BitVec.ofNat 8) else none

/-- The bytes of a program text up to its end or its first error; `n` bytes are already loaded. -/
def loadLines (n : Nat) : List (List Char) → List Byte × Option LoadError
  | [] => ([], none)
  | line :: rest =>
    let tok := lineToken line
    if tok.isEmpty then loadLines n rest
    else match literal? tok with
      | none => ([], some .badLiteral)
      | some b =>
        if n < memSize then
          let (bs, e) := loadLines (n + 1) rest
          (b :: bs, e)
        else ([], some .tooLong)

end Sys2Proof.Machine
end

