-- ==== Sys2Proof/Machine/Session.lean ====
section
/-! DEFINITION. The host's interactions, each allowed exactly when 70_reset_and_hazards.md R240 allows it: load
before a run with the CORE in reset, reset and start at any time, run after launch, inspect at any time. A
session is the CORE with the phase that decides this. The phase is no state of the CORE (log 20). -/

namespace Sys2Proof

open Machine

/-- The state a run is in after at most `fuel` steps: it stays where it ended (40_execution_cycle.md R128,
R129). -/
def runFor : Nat → State → State
  | 0, s => s
  | fuel + 1, s =>
    match step s with
    | .next t => runFor fuel t
    | .fault _ => s
    | .refused _ => s

end Sys2Proof

namespace Sys2Proof.Machine

/-- Where the host stands: the CORE is in reset and no run has begun, or a run was launched (R240, column "when
allowed"). A run that has ended is still the launched one, until the next reset. -/
inductive Phase where
  | inReset
  | launched
  deriving DecidableEq, Repr

/-- The CORE as the host drives it. -/
structure Session where
  phase : Phase
  core  : State
  deriving DecidableEq, Repr

/-- Before anything was done: the CORE in reset, nothing loaded. -/
def Session.new : Session := ⟨.inReset, State.reset⟩

/-- Reset, at any time: the CORE is reset and held in reset (R230, R240). -/
def Session.reset (s : Session) : Session := ⟨.inReset, s.core.hostReset⟩

/-- Reset and start of a run, at any time (R240, row "reset / start run"). -/
def Session.start (s : Session) : Session := ⟨.launched, s.core.hostReset⟩

/-- Load of program bytes: memory becomes the image of R236. Allowed before a run, with the CORE in reset;
otherwise there is no such interaction and the answer is `none` (R237, R240). -/
def Session.load (s : Session) (image : List Byte) : Option Session :=
  match s.phase with
  | .inReset => some { s with core := s.core.setMem (launchMemory image) }
  | .launched => none

/-- `load(source)` through the external loader (R240): the bytes before any error are loaded, and the host gets
the error back (R237). Allowed where a load is. -/
def Session.loadText (s : Session) (lines : List (List Char)) : Option (Session × Option LoadError) :=
  let (bytes, e) := loadLines 0 lines
  (s.load bytes).map fun t => (t, e)

/-- `run()` under fuel, allowed after launch: the session, and what the host gets back, which is nothing while
the run has not ended (40_execution_cycle.md R128, R129). The steps proceed by themselves: the fuel says how far the
model looks, and gives the host no power to pause or to step (00_scope.md R8; log 20). -/
def Session.run (s : Session) (fuel : Nat) : Option (Session × Option (Except ErrKind Unit)) :=
  match s.phase with
  | .inReset => none
  | .launched =>
    let t := runFor fuel s.core
    some ({ s with core := t }, t.report)

/-- Inspection, at any time; the session is unchanged by construction (R240). -/
def Session.inspect (s : Session) (sel : Selector) : Inspected := s.core.inspect sel

/-- What the host can ask for. What is not in the table of R240 it cannot do; output is no request, it is the
field `out` of the CORE. -/
inductive Request where
  | load (image : List Byte)
  | loadText (lines : List (List Char))
  | reset
  | start
  | run (fuel : Nat)
  | inspect (sel : Selector)
  deriving DecidableEq, Repr

/-- The session after a request; `none` where it is not allowed. -/
def Session.request (s : Session) : Request → Option Session
  | .load image => s.load image
  | .loadText lines => (s.loadText lines).map Prod.fst
  | .reset => some s.reset
  | .start => some s.start
  | .run fuel => (s.run fuel).map Prod.fst
  | .inspect _ => some s

/-- The session after a sequence of requests, one that is not allowed having no effect. -/
def Session.serve (s : Session) : List Request → Session
  | [] => s
  | r :: rs => Session.serve ((s.request r).getD s) rs

end Sys2Proof.Machine
end

