-- ==== Sys2Proof/Safety.lean ====
section
/-! DEFINITION. The terms claims are stated in: the invariant of 40_execution_cycle.md R131, what a run ends
in (R129), and what a next state keeps (10_state.md R34). -/

namespace Sys2Proof

open Machine

/-- The invariant of 40_execution_cycle.md R131, with memory in its canonical form. That every register and cell
is 0 to 255 is in their types. -/
structure Inv (s : State) : Prop where
  pc_le : s.pc.toNat ≤ 0x100
  fl_bit : s.fl = 0x00 ∨ s.fl = 0x01
  err_iff : s.err = .none ↔ s.run ≠ .faulted
  mem_wf : s.mem.wf

/-- An instruction at `pc` can be fetched (40_execution_cycle.md R123): its three bytes are in memory. -/
abbrev Fetchable (s : State) : Prop := s.pc.toNat ≤ 0xFD

/-- The three bytes at `pc` are these. -/
abbrev BytesAtPc (s : State) (b0 b1 b2 : Byte) : Prop :=
  s.mem.read s.pc.toNat = b0 ∧ s.mem.read (s.pc.toNat + 1) = b1 ∧ s.mem.read (s.pc.toNat + 2) = b2

/-- Every register but those listed holds in `t` what it held in `s`. -/
def RegsKept (s t : State) (changed : List Reg) : Prop := ∀ r, r ∉ changed → t.x r = s.x r

/-- Every memory cell but those listed reads in `t` as it read in `s`. -/
def MemKept (s t : State) (changed : List Nat) : Prop := ∀ a, a ∉ changed → t.mem.read a = s.mem.read a

/-- The run state and the fault latch are those of `s`. -/
def StatusKept (s t : State) : Prop := t.run = s.run ∧ t.err = s.err

/-- The registers an instruction reads, at most: the "reads" column of 10_state.md R34. -/
def Instr.reads : Instr → List Reg
  | .hlt => []
  | .ldi _ _ => []
  | .prn a => [a]
  | .mul a b => [a, b]
  | .add a b => [a, b]
  | .push a => [a, 7]
  | .pop _ => [7]
  | .call a => [7, a]
  | .ret => [7]
  | .cmp a b => [a, b]
  | .jmp a => [a]
  | .jeq a => [a]
  | .jne a => [a]

/-- The registers an instruction writes: the "writes" column of 10_state.md R34. -/
def Instr.writes : Instr → List Reg
  | .hlt => []
  | .ldi a _ => [a]
  | .prn _ => []
  | .mul a _ => [a]
  | .add a _ => [a]
  | .push _ => [7]
  | .pop a => [7, a]
  | .call _ => [7]
  | .ret => [7]
  | .cmp _ _ => []
  | .jmp _ => []
  | .jeq _ => []
  | .jne _ => []

/-- A run has ended: no step is enabled any more (40_execution_cycle.md R121, R129). -/
abbrev Ended (s : State) : Prop := s.run ≠ .running

/-- A safe run of `fuel` steps: it has raised no fault. -/
def SafeFor (fuel : Nat) (s : State) : Prop := (runFor fuel s).run ≠ .faulted

/-- Pushes of the bytes of a list, first to last, by the primitive of 43_stack.md R160. -/
def pushAll : List Byte → State → Except ErrKind State
  | [], s => .ok s
  | v :: vs, s => do
    let t ← s.push v
    pushAll vs t

/-- `n` pops by the primitive of 43_stack.md R161: the bytes in the order they come, and the state after. -/
def popAll : Nat → State → Except ErrKind (List Byte × State)
  | 0, s => .ok ([], s)
  | n + 1, s => do
    let (v, t) ← s.pop
    let (vs, u) ← popAll n t
    return (v :: vs, u)

end Sys2Proof
end

