-- ==== Sys2Proof/Certificates/Slice0/Obligations.lean ====
section
/-! DEFINITION. The statements about this model, for the provers. Each docstring names the rule of spec/ the
statement comes from. Where a clause rests on a decision the spec marks as its own (92_eei_decisions.md), the
docstring names the decision and its log entry. Opcode bytes are quantified over every legal map, as 30_encoding.md R97 asks. -/

namespace Sys2Proof.Claims

open Machine

/-- The outcome is the state `s` with the fault `e` taken and nothing else changed (60_exceptions.md R206;
decision D6, log 6). -/
def FaultsWith (o : Host.Outcome State Fault Refusal) (s : State) (e : ErrKind) : Prop :=
  ∃ t, o = .next t ∧ t.run = .faulted ∧ t.err = e ∧ t.pc = s.pc ∧ t.regs = s.regs ∧ t.fl = s.fl ∧
    t.mem = s.mem ∧ t.out = s.out

/-- What a step does with the bytes of an instruction without operands: AddressError above 0xFD (decision D14,
log 11), and the instruction otherwise, whatever the two bytes after the opcode hold. -/
def StepsAsF0 (k : Mnemonic) (i : Instr) : Prop :=
  ∀ (m : OpcodeMap) (s : State) (b1 b2 : Byte), m.Legal → s.run = .running → BytesAtPc s (m.byte k) b1 b2 →
    (s.pc.toNat > 0xFD → FaultsWith (stepWith m s) s .addressError) ∧
    (s.pc.toNat ≤ 0xFD → stepWith m s = exec i s)

/-- What a step does with the bytes of an instruction whose one register operand is operand_a: AddressError above
0xFD (decision D14, log 11), RegisterIndexError for an index above 7 (decision D8, log 12), and the instruction
otherwise. The instruction is also given operand_b, which is LDI's immediate and ignored by the others. -/
def StepsAsReg (k : Mnemonic) (mk : Reg → Byte → Instr) : Prop :=
  ∀ (m : OpcodeMap) (s : State) (b1 b2 : Byte), m.Legal → s.run = .running → BytesAtPc s (m.byte k) b1 b2 →
    (s.pc.toNat > 0xFD → FaultsWith (stepWith m s) s .addressError) ∧
    (s.pc.toNat ≤ 0xFD → b1.toNat > 7 → FaultsWith (stepWith m s) s .registerIndexError) ∧
    (∀ a : Reg, s.pc.toNat ≤ 0xFD → b1.toNat = a.val → stepWith m s = exec (mk a b2) s)

/-- What a step does with the bytes of an instruction of two register operands: AddressError above 0xFD (decision
D14, log 11), RegisterIndexError if either index is above 7 (decision D8, log 12), and the instruction
otherwise. -/
def StepsAsRegReg (k : Mnemonic) (mk : Reg → Reg → Instr) : Prop :=
  ∀ (m : OpcodeMap) (s : State) (b1 b2 : Byte), m.Legal → s.run = .running → BytesAtPc s (m.byte k) b1 b2 →
    (s.pc.toNat > 0xFD → FaultsWith (stepWith m s) s .addressError) ∧
    (s.pc.toNat ≤ 0xFD → (b1.toNat > 7 ∨ b2.toNat > 7) → FaultsWith (stepWith m s) s .registerIndexError) ∧
    (∀ a b : Reg, s.pc.toNat ≤ 0xFD → b1.toNat = a.val → b2.toNat = b.val → stepWith m s = exec (mk a b) s)

/-- Everything but the registers, the program counter and memory is kept. -/
def ControlKept (s t : State) : Prop := t.fl = s.fl ∧ StatusKept s t ∧ t.out = s.out

end Sys2Proof.Claims

open Sys2Proof Sys2Proof.Machine Sys2Proof.Claims

/-! ## Encoding -/

/-- 30_encoding.md R96: the five instructions of the source's program decode from the bytes the source gives,
under any legal map, the four opcode bytes have the operand count and the sets-PC bit R96 reads off them, and the
loader's example literal is LDI's byte. -/
def Obligations.SourceProgramWordsDecode : Prop :=
  (∀ m : OpcodeMap, m.Legal → ∀ u v : Byte,
    decode m ⟨0b10000010, 0b00000000, 0b00001000⟩ = .ok (.ldi 0 8) ∧
    decode m ⟨0b10000010, 0b00000001, 0b00001001⟩ = .ok (.ldi 1 9) ∧
    decode m ⟨0b10100010, 0b00000000, 0b00000001⟩ = .ok (.mul 0 1) ∧
    decode m ⟨0b01000111, 0b00000000, v⟩ = .ok (.prn 0) ∧
    decode m ⟨0b00000001, u, v⟩ = .ok .hlt) ∧
  operandCount 0b10000010 = 2 ∧ operandCount 0b10100010 = 2 ∧ operandCount 0b01000111 = 1 ∧
  operandCount 0b00000001 = 0 ∧ setsPc 0b10000010 = false ∧ setsPc 0b10100010 = false ∧
  setsPc 0b01000111 = false ∧ setsPc 0b00000001 = false ∧
  literal? ['1', '0', '0', '0', '0', '0', '1', '0'] = some 0b10000010

/-- 30_encoding.md section 3 and decision D16 (log 2; the spec marks the nine bytes as general knowledge): the
default opcode bytes are a legal map, and one word of each of the nine instructions, written out from its row,
decodes to it. -/
def Obligations.DefaultOpcodeWordsDecode : Prop :=
  opcodes.Legal ∧
  decode opcodes ⟨0b10100000, 3, 4⟩ = .ok (.add 3 4) ∧
  decode opcodes ⟨0b01000101, 1, 0xFF⟩ = .ok (.push 1) ∧
  decode opcodes ⟨0b01000110, 2, 0xFF⟩ = .ok (.pop 2) ∧
  decode opcodes ⟨0b01010000, 5, 0xFF⟩ = .ok (.call 5) ∧
  decode opcodes ⟨0b00010001, 0xAA, 0xBB⟩ = .ok .ret ∧
  decode opcodes ⟨0b10100111, 0, 7⟩ = .ok (.cmp 0 7) ∧
  decode opcodes ⟨0b01010100, 6, 0xFF⟩ = .ok (.jmp 6) ∧
  decode opcodes ⟨0b01010101, 3, 0xFF⟩ = .ok (.jeq 3) ∧
  decode opcodes ⟨0b01010110, 3, 0xFF⟩ = .ok (.jne 3)

/-- 30_encoding.md R91, R92: operand count and sets-PC are computed from bits 7:6 and 4 of any byte; the length
of an instruction is the operand count plus 1; the instruction is selected by the whole opcode byte, and a byte
that is no opcode is refused as unknown; and for the 13 opcodes the computed values are the instruction's own. -/
def Obligations.OpcodeFieldsAndWholeByteMatch : Prop :=
  (∀ ir : Byte, operandCount ir = ir.toNat / 64 ∧ (setsPc ir = true ↔ ir.toNat / 16 % 2 = 1)) ∧
  ∀ m : OpcodeMap, m.Legal →
    (∀ (ir : Byte) (k : Mnemonic), lookup m ir = some k ↔ ir = m.byte k) ∧
    (∀ f : Fetched, (∀ k, f.ir ≠ m.byte k) → decode m f = .error (.unknownOpcode f.ir)) ∧
    (∀ i : Instr, operandCount (m.byte i.mnemonic) = i.mnemonic.operands ∧
      setsPc (m.byte i.mnemonic) = i.mnemonic.writesPc ∧
      (encode m i).length = operandCount (m.byte i.mnemonic) + 1)

/-- 30_encoding.md R93, R95, R101: for every legal opcode map and every instruction, with every operand at every
value, the bytes of the encoding, followed by any two bytes, decode to the instruction. -/
def Obligations.DecodeOfEncodeIsTheInstruction : Prop :=
  ∀ (m : OpcodeMap) (i : Instr) (u v : Byte), m.Legal →
    decode m (Fetched.ofBytes (encode m i ++ [u, v])) = .ok i

/-- 30_encoding.md R90, R93: what decodes to an instruction begins with exactly the bytes of its encoding, as many
as the opcode's operand count says. -/
def Obligations.DecodedBytesAreTheEncoding : Prop :=
  ∀ (m : OpcodeMap) (f : Fetched) (i : Instr), m.Legal → decode m f = .ok i →
    encode m i = [f.ir, f.opa, f.opb].take (operandCount f.ir + 1)

/-- 30_encoding.md sections 2 and 4 (decisions D8, D22, logs 12, 13): the decoder accepts exactly the bytes that
are an instruction; it refuses an unknown opcode under that name whatever follows, and a known opcode only for a
register index above 7. -/
def Obligations.DecoderAcceptsExactlyWellFormedBytes : Prop :=
  ∀ (m : OpcodeMap) (f : Fetched), m.Legal →
    ((∃ i, decode m f = .ok i) ↔ f.WellFormed m) ∧
    ((∃ b, decode m f = .error (.unknownOpcode b)) ↔ ∀ k, f.ir ≠ m.byte k) ∧
    ((∃ b, decode m f = .error (.registerIndex b)) ↔ (∃ k, f.ir = m.byte k) ∧ ¬ f.WellFormed m)

/-- 30_encoding.md section 4 (decision D22, log 13): under any legal map exactly 243 of the 256 byte values are no
opcode, 0x00 and every byte with bits 7:6 = 11 among them. -/
def Obligations.IllegalOpcodesAre243 : Prop :=
  ∀ m : OpcodeMap, m.Legal →
    ((List.range 256).filter fun n => (lookup m (BitVec.ofNat 8 n)).isNone).length = 243 ∧
    (∀ ir : Byte, operandCount ir = 3 → lookup m ir = none) ∧ lookup m 0x00 = none

/-! ## Registers, memory and the stack primitives -/

/-- 10_state.md R30: the register file is eight registers of eight bits; each reads as what was last written to
it and a write changes no other register and nothing else, for R0 as for R7. -/
def Obligations.RegisterReadsWhatWasWritten : Prop :=
  ∀ (s : State) (i : Reg) (v : Byte),
    (s.setX i v).x i = v ∧ RegsKept s (s.setX i v) [i] ∧ (s.setX i v).mem = s.mem ∧
    (s.setX i v).pc = s.pc ∧ ControlKept s (s.setX i v)

/-- 20_memory.md section 1, the bounds check (its words on which callers can exceed it are the spec's own inference):
an address above 255 is AddressError for a read and a write and is never wrapped; inside, a read gives the cell,
and a write changes that cell only, which then reads as the value written. -/
def Obligations.MemoryAccessIsCheckedAndExact : Prop :=
  ∀ (s : State) (a : Nat) (v : Byte),
    (a > 255 → s.memRead a = .error .addressError ∧ s.memWrite a v = .error .addressError) ∧
    (a ≤ 255 → s.memRead a = .ok (s.mem.read a) ∧
      ∃ t, s.memWrite a v = .ok t ∧ t.memRead a = .ok v ∧ MemKept s t [a] ∧ RegsKept s t [] ∧
        t.pc = s.pc ∧ ControlKept s t)

/-- 43_stack.md R160: push decrements SP modulo 256 and stores the value at the new SP; it changes exactly that
register and that cell and never faults. -/
def Obligations.PushPrimitiveIsPreDecrement : Prop :=
  ∀ (s : State) (v : Byte), ∃ t, s.push v = .ok t ∧
    (t.x 7).toNat = ((s.x 7).toNat + 255) % 256 ∧ t.mem.read (t.x 7).toNat = v ∧
    RegsKept s t [7] ∧ MemKept s t [(s.x 7 - 1).toNat] ∧ t.pc = s.pc ∧ ControlKept s t

/-- 43_stack.md R161: pop gives the byte at the old SP and increments SP modulo 256; it changes that register and
no memory cell and never faults. -/
def Obligations.PopPrimitiveIsPostIncrement : Prop :=
  ∀ s : State, ∃ v t, s.pop = .ok (v, t) ∧ v = s.mem.read (s.x 7).toNat ∧
    (t.x 7).toNat = ((s.x 7).toNat + 1) % 256 ∧
    RegsKept s t [7] ∧ MemKept s t [] ∧ t.pc = s.pc ∧ ControlKept s t

/-- 43_stack.md R167: no push and no pop raises AddressError, since SP wraps modulo 256 both ways. That a step which
newly latches AddressError had `pc` above 0xFD, so that it was the fetch, is the spec's own inference
(20_memory.md R61, its last sentence, and 60_exceptions.md R204, both marked derived there). -/
def Obligations.StackAccessNeverFaults : Prop :=
  (∀ (s : State) (v : Byte), ∃ t, s.push v = .ok t ∧ (t.x 7).toNat = ((s.x 7).toNat + 255) % 256) ∧
  (∀ s : State, ∃ v t, s.pop = .ok (v, t) ∧ (t.x 7).toNat = ((s.x 7).toNat + 1) % 256) ∧
  (∀ (m : OpcodeMap) (s t : State), stepWith m s = .next t → t.err = .addressError →
    s.err ≠ .addressError → s.pc.toNat > 0xFD)

/-- LIFO, 43_stack.md R166 (b), marked there as derived; here for the primitives of R160 and R161, iterated: whatever
bytes are pushed, up to 256 of them and wherever SP stands, as many pops give them back last first, and every
register, SP among them, is then as it was. -/
def Obligations.StackIsLifo : Prop :=
  ∀ (vs : List Byte) (s : State), vs.length ≤ 256 →
    ∃ t u, pushAll vs s = .ok t ∧ popAll vs.length t = .ok (vs.reverse, u) ∧
      RegsKept s u [] ∧ u.pc = s.pc ∧ ControlKept s u ∧ u.mem = t.mem

/-- The model's canonical form of memory (log 5; 10_state.md section 7 gives memory as 256 cells and nothing more):
two memories in canonical form that read the same at every address are the same data. -/
def Obligations.CanonicalMemoryIsUnique : Prop :=
  ∀ p q : Memory, p.wf → q.wf → (∀ a, p.read a = q.read a) → p = q

/-! ## The instructions -/

/-- 40_execution_cycle.md R125: after the handler, an opcode with sets-PC clear advances `pc` by n + 1 without
wrap, to at most 0x100, and changes nothing else; an opcode with sets-PC set leaves `pc` as the handler set it;
and every instruction follows the bits of its own opcode under any legal map. -/
def Obligations.PcAdvanceFollowsTheOpcodeBits : Prop :=
  (∀ (ir : Byte) (s t : State), setsPc ir = true → s.retire ir (.ok t) = .next t) ∧
  (∀ (ir : Byte) (s t : State), setsPc ir = false → Fetchable t →
    ∃ u, s.retire ir (.ok t) = .next u ∧ u.pc.toNat = t.pc.toNat + operandCount ir + 1 ∧
      (operandCount ir ≤ 2 → u.pc.toNat ≤ 0x100) ∧
      RegsKept t u [] ∧ MemKept t u [] ∧ ControlKept t u) ∧
  (∀ (m : OpcodeMap) (i : Instr) (s : State), m.Legal → Fetchable s → ∃ t, exec i s = .next t ∧
    (setsPc (m.byte i.mnemonic) = false → t.pc.toNat = s.pc.toNat + operandCount (m.byte i.mnemonic) + 1))

/-- 41_data_and_system.md R140, HLT; its final `pc` is the spec's decision D13 (log 14) and its fetch clause D14
(log 11). The machine becomes Halted with `pc` one further, nothing else changes, no step follows, and nothing
but a HLT halts. That no step is enabled in Halted is decision D23, and the stuck outcome that says so,
`.fault .halted`, is the model's own (DESIGN CHOICE, log 7). -/
def Obligations.HltHaltsOnePastItself : Prop :=
  (∀ s : State, Fetchable s → ∃ t, exec .hlt s = .next t ∧ t.run = .halted ∧ t.pc.toNat = s.pc.toNat + 1 ∧
    RegsKept s t [] ∧ MemKept s t [] ∧ t.fl = s.fl ∧ t.err = s.err ∧ t.out = s.out ∧
    ∀ m, stepWith m t = .fault .halted) ∧
  (∀ (m : OpcodeMap) (s t : State), m.Legal → stepWith m s = .next t → t.run = .halted →
    s.mem.read s.pc.toNat = m.hlt) ∧
  StepsAsF0 .hlt .hlt

/-- 41_data_and_system.md R141, LDI; its fault clauses are decisions D8 and D14 (logs 12, 11). `x[a]` holds the
immediate, for every register and every byte, and nothing else changes but `pc` by 3. -/
def Obligations.LdiLoadsTheImmediate : Prop :=
  (∀ (a : Reg) (imm : Byte) (s : State), Fetchable s → ∃ t, exec (.ldi a imm) s = .next t ∧ t.x a = imm ∧
    t.pc.toNat = s.pc.toNat + 3 ∧ RegsKept s t [a] ∧ MemKept s t [] ∧ ControlKept s t) ∧
  StepsAsReg .ldi fun a imm => .ldi a imm

/-- 41_data_and_system.md R142, PRN; its fault clauses are decisions D8 and D14 (logs 12, 11). `out` gains the
register's full value, and nothing else changes but `pc` by 2. -/
def Obligations.PrnEmitsTheRegister : Prop :=
  (∀ (a : Reg) (s : State), Fetchable s → ∃ t, exec (.prn a) s = .next t ∧ t.out = s.out ++ [s.x a] ∧
    t.pc.toNat = s.pc.toNat + 2 ∧ RegsKept s t [] ∧ MemKept s t [] ∧ t.fl = s.fl ∧ StatusKept s t) ∧
  StepsAsReg .prn fun a _ => .prn a

/-- 42_alu.md R151, MUL; its fault clauses are decisions D8 and D14 (logs 12, 11). `x[a]` is the product of the
two old values modulo 256, a = b among them, and nothing else changes but `pc` by 3. -/
def Obligations.MulIsProductMod256 : Prop :=
  (∀ (a b : Reg) (s : State), Fetchable s → ∃ t, exec (.mul a b) s = .next t ∧
    (t.x a).toNat = (s.x a).toNat * (s.x b).toNat % 256 ∧
    t.pc.toNat = s.pc.toNat + 3 ∧ RegsKept s t [a] ∧ MemKept s t [] ∧ ControlKept s t) ∧
  StepsAsRegReg .mul fun a b => .mul a b

/-- 42_alu.md R152, ADD; its fault clauses are decisions D8 and D14 (logs 12, 11). `x[a]` is the sum of the two
old values modulo 256, a = b among them, and nothing else changes but `pc` by 3. -/
def Obligations.AddIsSumMod256 : Prop :=
  (∀ (a b : Reg) (s : State), Fetchable s → ∃ t, exec (.add a b) s = .next t ∧
    (t.x a).toNat = ((s.x a).toNat + (s.x b).toNat) % 256 ∧
    t.pc.toNat = s.pc.toNat + 3 ∧ RegsKept s t [a] ∧ MemKept s t [] ∧ ControlKept s t) ∧
  StepsAsRegReg .add fun a b => .add a b

/-- 43_stack.md R162, PUSH; its fault clauses are decisions D8 and D14 (logs 12, 11), and that PUSH R7 stores the
old SP is D10 (log 15). SP is one lower modulo 256, the cell there holds the register's old value, and nothing
else changes but `pc` by 2. -/
def Obligations.PushStoresTheRegister : Prop :=
  (∀ (a : Reg) (s : State), Fetchable s → ∃ t, exec (.push a) s = .next t ∧ t.x 7 = s.x 7 - 1 ∧
    t.mem.read (s.x 7 - 1).toNat = s.x a ∧ t.pc.toNat = s.pc.toNat + 2 ∧
    RegsKept s t [7] ∧ MemKept s t [(s.x 7 - 1).toNat] ∧ ControlKept s t) ∧
  StepsAsReg .push fun a _ => .push a

/-- 43_stack.md R164, POP; its fault clauses are decisions D8 and D14 (logs 12, 11), and that POP R7 ends with the
popped byte in SP is D11 (log 15). `x[a]` is the byte at the old SP, SP is one higher modulo 256 unless a = 7,
and nothing else changes but `pc` by 2. -/
def Obligations.PopLoadsTheTopByte : Prop :=
  (∀ (a : Reg) (s : State), Fetchable s → ∃ t, exec (.pop a) s = .next t ∧
    t.x a = s.mem.read (s.x 7).toNat ∧ (a ≠ 7 → t.x 7 = s.x 7 + 1) ∧ t.pc.toNat = s.pc.toNat + 2 ∧
    RegsKept s t [7, a] ∧ MemKept s t [] ∧ ControlKept s t) ∧
  StepsAsReg .pop fun a _ => .pop a

/-- 44_subroutine.md R170, CALL; its fault clauses are decisions D8 and D14 (logs 12, 11), and that the target is
read after the push is D12 for R7 (log 15). The cell at the decremented SP holds `pc + 2`, uncut, and `pc` is the
target register's value after the push. -/
def Obligations.CallPushesTheReturnAddress : Prop :=
  (∀ (a : Reg) (s : State), Fetchable s → ∃ t, exec (.call a) s = .next t ∧ t.x 7 = s.x 7 - 1 ∧
    (t.mem.read (s.x 7 - 1).toNat).toNat = s.pc.toNat + 2 ∧
    t.pc.toNat = (if a = 7 then s.x 7 - 1 else s.x a).toNat ∧
    RegsKept s t [7] ∧ MemKept s t [(s.x 7 - 1).toNat] ∧ ControlKept s t) ∧
  StepsAsReg .call fun a _ => .call a

/-- 44_subroutine.md R172, RET; its fetch clause is decision D14 (log 11). `pc` is the byte at the old SP, SP is
one higher modulo 256, and nothing else changes. -/
def Obligations.RetJumpsToTheTopByte : Prop :=
  (∀ s : State, Fetchable s → ∃ t, exec .ret s = .next t ∧
    t.pc.toNat = (s.mem.read (s.x 7).toNat).toNat ∧ t.x 7 = s.x 7 + 1 ∧
    RegsKept s t [7] ∧ MemKept s t [] ∧ ControlKept s t) ∧
  StepsAsF0 .ret .ret

/-- 45_compare_and_jump.md section on CMP: sticky E as 90_conflicts.md C1 resolves it; that bit 0 alone is written
is decision D9 (log 16), and the fault clauses are D8 and D14 (logs 12, 11). Equal values set E and leave bits
7:1; unequal values leave `fl`; nothing else changes but `pc` by 3. -/
def Obligations.CmpSetsTheStickyEqualFlag : Prop :=
  (∀ (a b : Reg) (s : State), Fetchable s → ∃ t, exec (.cmp a b) s = .next t ∧
    (s.x a = s.x b → t.fl.getLsbD 0 = true ∧ ∀ k, 1 ≤ k → t.fl.getLsbD k = s.fl.getLsbD k) ∧
    (s.x a ≠ s.x b → t.fl = s.fl) ∧
    t.pc.toNat = s.pc.toNat + 3 ∧ RegsKept s t [] ∧ MemKept s t [] ∧ StatusKept s t ∧ t.out = s.out) ∧
  StepsAsRegReg .cmp fun a b => .cmp a b

/-- 45_compare_and_jump.md R181, JMP; its fault clauses are decisions D8 and D14 (logs 12, 11). `pc` is the
register's value, whatever it is, and nothing else changes. -/
def Obligations.JmpGoesToTheRegister : Prop :=
  (∀ (a : Reg) (s : State), ∃ t, exec (.jmp a) s = .next t ∧ t.pc.toNat = (s.x a).toNat ∧
    RegsKept s t [] ∧ MemKept s t [] ∧ ControlKept s t) ∧
  StepsAsReg .jmp fun a _ => .jmp a

/-- 45_compare_and_jump.md R182, JEQ; its fault clauses, the register index checked on both paths, are decisions
D8 and D14 (logs 12, 11). Taken exactly if bit 0 of `fl` is set; otherwise `pc` is 2 further; nothing else
changes. -/
def Obligations.JeqJumpsIfEqualIsSet : Prop :=
  (∀ (a : Reg) (s : State), Fetchable s → ∃ t, exec (.jeq a) s = .next t ∧
    t.pc.toNat = (if s.fl.getLsbD 0 = true then (s.x a).toNat else s.pc.toNat + 2) ∧
    RegsKept s t [] ∧ MemKept s t [] ∧ ControlKept s t) ∧
  StepsAsReg .jeq fun a _ => .jeq a

/-- 45_compare_and_jump.md R183, JNE; its fault clauses, the register index checked on both paths, are decisions
D8 and D14 (logs 12, 11). Taken exactly if bit 0 of `fl` is clear; otherwise `pc` is 2 further; nothing else
changes. -/
def Obligations.JneJumpsIfEqualIsClear : Prop :=
  (∀ (a : Reg) (s : State), Fetchable s → ∃ t, exec (.jne a) s = .next t ∧
    t.pc.toNat = (if s.fl.getLsbD 0 = false then (s.x a).toNat else s.pc.toNat + 2) ∧
    RegsKept s t [] ∧ MemKept s t [] ∧ ControlKept s t) ∧
  StepsAsReg .jne fun a _ => .jne a

/-- 43_stack.md and 44_subroutine.md on R7 as the operand, the spec's own decisions D10, D11, D12 (log 15): PUSH R7
stores the old SP, POP R7 ends with SP equal to the popped byte, CALL R7 jumps to the decremented SP. -/
def Obligations.StackPointerAsTheOperand : Prop :=
  ∀ s : State, ∃ t u w, exec (.push 7) s = .next t ∧ exec (.pop 7) s = .next u ∧ exec (.call 7) s = .next w ∧
    t.x 7 = s.x 7 - 1 ∧ t.mem.read (s.x 7 - 1).toNat = s.x 7 ∧
    u.x 7 = s.mem.read (s.x 7).toNat ∧
    w.x 7 = s.x 7 - 1 ∧ w.pc.toNat = (s.x 7 - 1).toNat

/-- 43_stack.md R166 (b), marked there as the spec's own inference: a PUSH followed by a POP puts the old value of
the pushed register into the popped one, restores SP unless SP is the popped register, and leaves every other
register and every cell but the one below SP, where the byte stays. -/
def Obligations.PushThenPopMovesTheValue : Prop :=
  ∀ (a b : Reg) (s : State), ∃ t u, exec (.push a) s = .next t ∧ exec (.pop b) t = .next u ∧
    u.x b = s.x a ∧ RegsKept s u [b] ∧ MemKept s u [(s.x 7 - 1).toNat] ∧
    u.mem.read (s.x 7 - 1).toNat = s.x a ∧ ControlKept s u

/-- 44_subroutine.md R173: a RET executed in any state that has SP and the return-address cell as the CALL left
them returns to the instruction after the CALL and restores SP. -/
def Obligations.RetReturnsAfterTheCall : Prop :=
  ∀ (a : Reg) (s : State), Fetchable s → ∃ t, exec (.call a) s = .next t ∧
    ∀ u : State, u.x 7 = t.x 7 → u.mem.read (t.x 7).toNat = t.mem.read (t.x 7).toNat →
      ∃ w, exec .ret u = .next w ∧ w.pc.toNat = s.pc.toNat + 2 ∧ w.x 7 = s.x 7

/-- 45_compare_and_jump.md R184, marked there as the spec's own inference: after a CMP, JEQ is taken exactly if the
operands were equal or E was already set, and JNE exactly if not. -/
def Obligations.JumpsAfterCompare : Prop :=
  ∀ (a b c : Reg) (s : State), Fetchable s → ∃ t u w, exec (.cmp a b) s = .next t ∧
    exec (.jeq c) t = .next u ∧ exec (.jne c) t = .next w ∧ t.pc.toNat = s.pc.toNat + 3 ∧
    (s.x a = s.x b ∨ s.fl.getLsbD 0 = true →
      u.pc.toNat = (s.x c).toNat ∧ w.pc.toNat = s.pc.toNat + 5) ∧
    (¬ (s.x a = s.x b ∨ s.fl.getLsbD 0 = true) →
      u.pc.toNat = s.pc.toNat + 5 ∧ w.pc.toNat = (s.x c).toNat)

/-! ## Rules over all instructions -/

/-- 60_exceptions.md R204, marked there as the spec's own inference: every instruction executes to completion in
every state; none writes the fault latch, and none but HLT writes the run state. -/
def Obligations.ExecuteNeverRaises : Prop :=
  ∀ (i : Instr) (s : State), ∃ t, exec i s = .next t ∧ t.err = s.err ∧
    (i ≠ .hlt → t.run = s.run) ∧ (i = .hlt → t.run = .halted)

/-- 10_state.md R34, the "writes" column: an instruction changes no register outside its column. -/
def Obligations.RegistersWrittenAreThoseNamed : Prop :=
  ∀ (i : Instr) (s t : State), exec i s = .next t → RegsKept s t i.writes

/-- 10_state.md R34, the "reads" column: a register an instruction neither reads nor writes has no influence on
what it does, and the old value of a register it writes without reading is lost. -/
def Obligations.RegistersReadAreThoseNamed : Prop :=
  ∀ (i : Instr) (r : Reg) (v : Byte) (s t : State), exec i s = .next t → r ∉ i.reads →
    (r ∉ i.writes → exec i (s.setX r v) = .next (t.setX r v)) ∧
    (r ∈ i.writes → exec i (s.setX r v) = .next t)

/-- 10_state.md R41, R42 (its last sentence, on bits 7:1, is the invariant's): no step clears E, and `fl` changes
only in a CMP of equal registers. -/
def Obligations.EqualFlagIsNeverCleared : Prop :=
  (∀ (i : Instr) (s t : State), exec i s = .next t → t.fl ≠ s.fl →
    s.fl.getLsbD 0 = false ∧ t.fl.getLsbD 0 = true ∧ ∃ a b, i = .cmp a b ∧ s.x a = s.x b) ∧
  (∀ (m : OpcodeMap) (s t : State), stepWith m s = .next t → s.fl.getLsbD 0 = true → t.fl = s.fl)

/-- 10_state.md R42: no instruction but JEQ and JNE reads `fl`; what the others do is the same whatever it
holds. -/
def Obligations.FlagIsReadOnlyByJeqAndJne : Prop :=
  ∀ (i : Instr) (f : Byte) (s t u : State), i.mnemonic ≠ .jeq → i.mnemonic ≠ .jne →
    exec i s = .next t → exec i { s with fl := f } = .next u → { u with fl := 0 } = { t with fl := 0 }

/-- 20_memory.md R65, R74: the only cell a step can change is the one below SP, and only PUSH and CALL change
it. -/
def Obligations.MemoryIsWrittenOnlyByPush : Prop :=
  ∀ (m : OpcodeMap) (s t : State), stepWith m s = .next t →
    MemKept s t [(s.x 7 - 1).toNat] ∧
    (s.mem.read s.pc.toNat ≠ m.push → s.mem.read s.pc.toNat ≠ m.call → t.mem = s.mem)

/-- 10_state.md R52, 40_execution_cycle.md R130: `out` is empty at launch; a step extends it only by executing a
PRN, at its end, by the register PRN names; nothing is withdrawn, by a fault or otherwise; and the CORE never
reads it. -/
def Obligations.OutputIsExtendedOnlyByPrn : Prop :=
  (∀ image, (State.launch image).out = []) ∧
  (∀ (m : OpcodeMap) (s t : State), stepWith m s = .next t →
    (t.out = s.out ∨ (s.mem.read s.pc.toNat = m.prn ∧
      ∃ a : Reg, (s.mem.read (s.pc.toNat + 1)).toNat = a.val ∧ t.out = s.out ++ [s.x a])) ∧
    ∃ new, t.out = s.out ++ new ∧
      ∀ o, stepWith m { s with out := o } = .next { t with out := o ++ new })

/-! ## The step -/

/-- 40_execution_cycle.md section 1: where the three bytes at a fetchable `pc` decode to an instruction, the step is
that instruction's meaning, which makes the pc advance itself; nothing is added around it. -/
def Obligations.StepRunsTheDecodedInstruction : Prop :=
  (∀ (m : OpcodeMap) (s : State) (i : Instr), s.run = .running → Fetchable s →
    decode m ⟨s.mem.read s.pc.toNat, s.mem.read (s.pc.toNat + 1), s.mem.read (s.pc.toNat + 2)⟩ = .ok i →
    stepWith m s = exec i s) ∧
  ∀ s : State, step s = stepWith opcodes s

/-- 60_exceptions.md sections 1 and 3 (decisions D6, D8, D14, D15, logs 6, 12, 11, 17): the fault of a step, in the
priority of its phases; bytes that are an instruction raise none. -/
def Obligations.FaultsInThePhaseOrder : Prop :=
  ∀ (m : OpcodeMap) (s : State) (f : Fetched), m.Legal → s.run = .running →
    BytesAtPc s f.ir f.opa f.opb →
    if s.pc.toNat > 0xFD then FaultsWith (stepWith m s) s .addressError
    else if ∀ k ∈ Mnemonic.all, f.ir ≠ m.byte k then FaultsWith (stepWith m s) s .decodeError
    else if ¬ f.WellFormed m then FaultsWith (stepWith m s) s .registerIndexError
    else ∃ t, stepWith m s = .next t ∧ t.run ≠ .faulted ∧ t.err = s.err

/-- 60_exceptions.md section 4 (decision D6, log 6): a step that ends in Faulted has latched one of the three
faults and changed nothing but `run` and `err`. -/
def Obligations.FaultEntryIsPrecise : Prop :=
  ∀ (m : OpcodeMap) (s t : State), stepWith m s = .next t → t.run = .faulted →
    t.err ≠ .none ∧ t = { s with run := .faulted, err := t.err }

/-- 40_execution_cycle.md section 5 (Faulted: decision D6, log 6): a step leads to Halted exactly by a HLT, to
Faulted exactly by a fault, and to Running otherwise. When a step faults is said in sections 2 and 3 there and in
60_exceptions.md section 1: a `pc` above 0xFD is decision D14 (log 11), an opcode that is none of the 13 is D22
(log 13), and a register index above 7 is D8 (log 12). -/
def Obligations.RunStateTransitions : Prop :=
  ∀ (m : OpcodeMap) (s t : State) (f : Fetched), m.Legal → BytesAtPc s f.ir f.opa f.opb →
    stepWith m s = .next t →
    s.run = .running ∧
    (t.run = .halted ↔ Fetchable s ∧ f.ir = m.hlt) ∧
    (t.run = .faulted ↔ ¬ (Fetchable s ∧ f.WellFormed m)) ∧
    (t.run = .running ↔ Fetchable s ∧ f.WellFormed m ∧ f.ir ≠ m.hlt)

/-- 40_execution_cycle.md section 1 (decision D23, log 7 for the two stuck outcomes' names): in Running there is
always a next state; in Halted and Faulted there is none. -/
def Obligations.StepIsEnabledExactlyWhileRunning : Prop :=
  ∀ (m : OpcodeMap) (s : State),
    (s.run = .running → ∃ t, stepWith m s = .next t) ∧
    (s.run = .halted → stepWith m s = .fault .halted) ∧
    (s.run = .faulted → stepWith m s = .fault .faulted)

/-- 20_memory.md section 9 (decision D19, log 18): a byte stored by a PUSH or a CALL at an address of the next
instruction is what the next fetch reads there. That PUSH R7 stores the old SP is decision D10 (log 15). At a `pc`
above 0xFD, where no step executes a CALL, the return address `exec` stores is cut to 8 bits, which is the model's
own (DEDUCED, log 8). -/
def Obligations.StoreIsSeenByTheNextFetch : Prop :=
  ∀ (i : Instr) (a : Reg) (s t : State) (f : Fetched), i = .push a ∨ i = .call a →
    exec i s = .next t → t.fetch = .ok f →
    let v := if i = .push a then s.x a else (s.pc + 2).setWidth 8
    (t.pc.toNat = (s.x 7 - 1).toNat → f.ir = v) ∧
    (t.pc.toNat + 1 = (s.x 7 - 1).toNat → f.opa = v) ∧
    (t.pc.toNat + 2 = (s.x 7 - 1).toNat → f.opb = v)

/-- 40_execution_cycle.md section 6 (R131, marked there as the spec's own inference): every step keeps the
invariant: `pc` at most 0x100, `fl` 0 or 1, `err` None exactly when not Faulted (decision D6, log 6), and memory
canonical, which is the model's own clause (DESIGN CHOICE, log 5). -/
def Obligations.StepKeepsTheInvariant : Prop :=
  ∀ (m : OpcodeMap) (s t : State), Inv s → stepWith m s = .next t → Inv t

/-- 40_execution_cycle.md section 6 (R131, marked there as derived): the invariant holds after reset, after any
launch, and after a reset applied by the host to any state whose memory is canonical. The canonical form of memory is
the model's own clause (DESIGN CHOICE, log 5); the reset, a function beside the step, is decision D18 (log 19, DESIGN
CHOICE); the reset values the invariant rests on are D4 and D6 (logs 4, 6). -/
def Obligations.ResetAndLaunchMeetTheInvariant : Prop :=
  Inv State.reset ∧ (∀ image, Inv (State.launch image)) ∧ ∀ s : State, s.mem.wf → Inv s.hostReset

/-- 40_execution_cycle.md section 5: once a run has ended, more fuel leaves it in the same state; and it has then
either halted with no fault latched or stopped with exactly one fault latched, if it began in the invariant. The
fault latch and Faulted are decision D6 (log 6), that no step follows is D23 (log 7), and the invariant's clause on
memory is the model's own (DESIGN CHOICE, log 5). -/
def Obligations.EndedRunsStayEnded : Prop :=
  ∀ (n k : Nat) (s : State), Ended (runFor n s) →
    runFor (n + k) s = runFor n s ∧
    (Inv s → ((runFor n s).run = .halted ∧ (runFor n s).err = .none) ∨
      ((runFor n s).run = .faulted ∧ (runFor n s).err ≠ .none))

/-! ## Reset, launch and the host -/

/-- 70_reset_and_hazards.md section 1: the reset value of every piece of state. SP, `pc` and Running are the
source's; R0 to R6, `fl` and `err` are the spec's own decisions D3, D4, D6 (logs 3, 4, 6). -/
def Obligations.ResetValues : Prop :=
  State.reset.x 7 = 0xF4 ∧ (∀ r : Reg, r ≠ 7 → State.reset.x r = 0x00) ∧ State.reset.pc = 0x000 ∧
  State.reset.fl = 0x00 ∧ State.reset.run = .running ∧ State.reset.err = .none ∧
  State.reset.out = [] ∧ ∀ a, State.reset.mem.read a = 0x00

/-- 70_reset_and_hazards.md section 1 (decision D18, log 19): a reset in any state gives every register its reset
value (for all but SP, `pc` and `run` the decisions D3, D4, D6, logs 3, 4, 6) and empties `out`, leaves memory, and
makes a step possible again. -/
def Obligations.HostResetLeavesOnlyMemory : Prop :=
  ∀ s : State, MemKept s s.hostReset [] ∧ RegsKept State.reset s.hostReset [] ∧
    s.hostReset.pc = State.reset.pc ∧ ControlKept State.reset s.hostReset ∧
    ∃ t, step s.hostReset = .next t

/-- 70_reset_and_hazards.md section 2 (the fill is decision D5, log 5): the launch state holds the image from
address 0 and the fill after it, everything else as after reset. -/
def Obligations.LaunchHoldsTheImage : Prop :=
  ∀ (image : List Byte), image.length ≤ 256 →
    (∀ a, (State.launch image).mem.read a = image.getD a 0x00) ∧
    RegsKept State.reset (State.launch image) [] ∧ (State.launch image).pc = State.reset.pc ∧
    ControlKept State.reset (State.launch image)

/-- 95_test_vectors.md S8 and 70_reset_and_hazards.md section 2 (the loader's details are decision D21, log 10; the
fill is D5, log 5): in reset, a line that is no literal raises LoadError, and memory holds exactly the bytes of the
lines before it, with the fill after them; nothing else changes. -/
def Obligations.LoadErrorKeepsTheLoadedBytes : Prop :=
  ∀ (good : List (List Char)) (bytes : List Byte) (bad : List Char) (rest : List (List Char)) (s : Session),
    good.map (fun l => literal? (lineToken l)) = bytes.map some → bytes.length ≤ 256 →
    literal? (lineToken bad) = none → lineToken bad ≠ [] → s.phase = .inReset →
    ∃ t, s.load bytes = some t ∧ s.loadText (good ++ bad :: rest) = some (t, some .badLiteral) ∧
      t.phase = .inReset ∧ (∀ a, t.core.mem.read a = bytes.getD a 0x00) ∧ RegsKept s.core t.core [] ∧
      t.core.pc = s.core.pc ∧ ControlKept s.core t.core

/-- The placing of an instruction for the host (log 9; 70_reset_and_hazards.md section 2 for the load it stands
for): a table word the decoder reads is what the very next step executes, whatever the state was. -/
def Obligations.PlacedWordIsExecutedNext : Prop :=
  ∀ (s : State) (nbits w : Nat) (i : Instr), decodeTableWord nbits w = some i →
    step (s.withFetchWord nbits w) = exec i (s.withFetchWord nbits w)

/-- 70_reset_and_hazards.md section 3, the host's table (decision D20; the phase is the model's, log 20): a load is
answered before a run, with the CORE in reset, and then sets memory to the image and nothing else; it is refused once
a run is launched. A run is refused in reset, and launched it takes steps and reports nothing before its end. Reset,
start and inspection are answered in both phases; a reset, a load and a start give the launch state. -/
def Obligations.HostInteractionsAreAllowedAsTabled : Prop :=
  (∀ (s : Session) (image : List Byte), s.phase = .inReset → image.length ≤ 256 →
    ∃ t, s.load image = some t ∧ t.phase = .inReset ∧ (∀ a, t.core.mem.read a = image.getD a 0x00) ∧
      RegsKept s.core t.core [] ∧ t.core.pc = s.core.pc ∧ ControlKept s.core t.core) ∧
  (∀ (s : Session) (image : List Byte) (lines : List (List Char)), s.phase = .launched →
    s.load image = none ∧ s.loadText lines = none) ∧
  (∀ (s : Session) (fuel : Nat), s.phase = .inReset → s.run fuel = none) ∧
  (∀ (s : Session) (fuel : Nat), s.phase = .launched → ∃ t r, s.run fuel = some (t, r) ∧ t.phase = .launched ∧
    t.core = runFor fuel s.core ∧ (r = none ↔ t.core.run = .running) ∧
    (r = some (.ok ()) ↔ t.core.run = .halted) ∧ (r = some (.error t.core.err) ↔ t.core.run = .faulted)) ∧
  (∀ (s : Session) (sel : Selector), s.request .reset = some s.reset ∧ s.request .start = some s.start ∧
    s.request (.inspect sel) = some s) ∧
  (∀ (s : Session) (image : List Byte), (s.serve [.reset, .load image, .start]).phase = .launched ∧
    (s.serve [.reset, .load image, .start]).core = State.launch image)

/-- 70_reset_and_hazards.md section 3 and 20_memory.md section 11 (decision D20; the phase is the model's, log 20):
whatever the host asks for once a run is launched, other than a reset or a start, the CORE is where its own steps
alone have brought it. -/
def Obligations.HostCannotDisturbARun : Prop :=
  ∀ (rs : List Request) (s : Session), s.phase = .launched → (∀ r ∈ rs, r ≠ .reset ∧ r ≠ .start) →
    ∃ n, s.serve rs = ⟨.launched, runFor n s.core⟩
end

