-- ==== Sys2Proof/Laws/Decode.lean ====
section
/-! SUPPORT. What the parts of the decoder do: matching the opcode byte and checking a register index. -/

namespace Sys2Proof

theorem Mnemonic.mem_all (k : Mnemonic) : k ∈ Mnemonic.all := by cases k <;> decide

/-- A legal map gives two mnemonics one byte only if they are the same. -/
theorem OpcodeMap.byte_injective {m : OpcodeMap} (h : m.Distinct) {j k : Mnemonic}
    (e : m.byte j = m.byte k) : j = k :=
  List.inj_on_of_nodup_map h (Mnemonic.mem_all j) (Mnemonic.mem_all k) e

/-- What `lookup` answers: the mnemonic with this byte. -/
theorem lookup_eq_some {m : OpcodeMap} {ir : Byte} {k : Mnemonic} (h : lookup m ir = some k) :
    m.byte k = ir := by
  simpa using List.find?_some h

/-- It answers nothing exactly when no mnemonic has this byte. -/
theorem lookup_eq_none {m : OpcodeMap} {ir : Byte} : lookup m ir = none ↔ ∀ k, m.byte k ≠ ir := by
  simp [lookup, List.find?_eq_none, Mnemonic.mem_all]

/-- Each mnemonic is found by its own byte. -/
theorem lookup_byte {m : OpcodeMap} (h : m.Distinct) (k : Mnemonic) : lookup m (m.byte k) = some k := by
  cases e : lookup m (m.byte k) with
  | none => exact absurd rfl (lookup_eq_none.mp e k)
  | some j => rw [OpcodeMap.byte_injective h (lookup_eq_some e)]

@[simp] theorem regByte_toNat (r : Reg) : (regByte r).toNat = r.val := by
  simp [regByte]
  omega

/-- A register index that is one passes the check as itself. -/
theorem regidx_of_toNat {v : Byte} {r : Reg} (h : v.toNat = r.val) : regidx v = .ok r := by
  simp [regidx, h]

@[simp] theorem regidx_regByte (r : Reg) : regidx (regByte r) = .ok r := regidx_of_toNat (regByte_toNat r)

/-- Above 7 the check refuses by name (30_encoding.md R102). -/
theorem regidx_of_gt {v : Byte} (h : v.toNat > 7) : regidx v = .error (.registerIndex v) := by
  simp [regidx, show ¬ v.toNat < 8 by omega]

/-- What passed the check is the byte's own value. -/
theorem regidx_eq_ok {v : Byte} {r : Reg} (h : regidx v = .ok r) : v = regByte r ∧ v.toNat ≤ 7 := by
  unfold regidx at h
  split at h
  · rename_i hv
    cases h
    refine ⟨?_, by omega⟩
    apply BitVec.eq_of_toNat_eq
    simp
  · cases h

/-- The bits 7:6 and the bit 4 the decoder computes are those the legality check names. -/
theorem OpcodeMap.bits_of_legal {m : OpcodeMap} (h : m.BitsFit) (k : Mnemonic) :
    operandCount (m.byte k) = k.operands ∧ setsPc (m.byte k) = k.writesPc := by
  obtain ⟨hn, hp⟩ := h k (Mnemonic.mem_all k)
  refine ⟨?_, hp⟩
  rw [← hn]
  simp [operandCount, BitVec.toNat_ushiftRight, Nat.shiftRight_eq_div_pow]

end Sys2Proof
end

