-- ==== Sys2Proof/Laws/Memory.lean ====
section
/-! SUPPORT. The laws of memory: a read after a write, and that every operation keeps the canonical form. -/

namespace Sys2Proof.Machine

@[simp] theorem Memory.read_nil (a : Nat) : Memory.read [] a = Memory.fill := rfl

theorem Memory.read_cons (c : Host.Cell) (m : Memory) (a : Nat) :
    Memory.read (c :: m) a = if a = c.1 then c.2 else Memory.read m a := rfl

/-- An address with no entry reads as the fill byte. -/
theorem Memory.read_of_unlisted {m : Memory} {a : Nat} (h : ∀ c ∈ m, c.1 ≠ a) : m.read a = Memory.fill := by
  induction m with
  | nil => rfl
  | cons c m ih =>
    have hc : ¬ a = c.1 := fun e => h c (by simp) e.symm
    rw [Memory.read_cons, if_neg hc]
    exact ih fun d hd => h d (by simp [hd])

theorem Memory.not_mem_unlist {m : Memory} {a : Nat} : ∀ c ∈ m.unlist a, c.1 ≠ a := by
  intro c hc
  simpa using (List.mem_filter.mp hc).2

theorem Memory.read_unlist (m : Memory) (a b : Nat) :
    (m.unlist a).read b = if b = a then Memory.fill else m.read b := by
  by_cases h : b = a
  · subst h
    simp [Memory.read_of_unlisted Memory.not_mem_unlist]
  · rw [if_neg h]
    induction m with
    | nil => rfl
    | cons c m ih =>
      by_cases hc : c.1 = a
      · have : Memory.unlist (c :: m) a = Memory.unlist m a := by simp [Memory.unlist, hc]
        rw [this, ih, Memory.read_cons, if_neg (fun e => h (e.trans hc))]
      · have : Memory.unlist (c :: m) a = c :: Memory.unlist m a := by simp [Memory.unlist, hc]
        rw [this, Memory.read_cons, Memory.read_cons, ih]

theorem Memory.read_enlist {m : Memory} {a : Nat} (h : ∀ c ∈ m, c.1 ≠ a) (v : Byte) (b : Nat) :
    (m.enlist a v).read b = if b = a then v else m.read b := by
  induction m with
  | nil => simp [Memory.enlist, Memory.read_cons]
  | cons c m ih =>
    obtain ⟨d, w⟩ := c
    have hd : d ≠ a := h (d, w) (by simp)
    have ih := ih fun c hc => h c (by simp [hc])
    simp only [Memory.enlist]
    split
    · simp [Memory.read_cons]
    · simp only [Memory.read_cons, ih]
      by_cases hb : b = d
      · simp [hb, hd]
      · simp [hb]

/-- A read after a write: the cell written gives the value written, every other cell what it gave before
(20_memory.md R62, R66). -/
theorem Memory.read_write (m : Memory) (a : Nat) (v : Byte) (b : Nat) :
    (m.write a v).read b = if b = a then v else m.read b := by
  unfold Memory.write
  split
  · rename_i h
    rw [Memory.read_unlist, h]
  · rw [Memory.read_enlist Memory.not_mem_unlist, Memory.read_unlist]
    split <;> simp_all

@[simp] theorem Memory.read_write_self (m : Memory) (a : Nat) (v : Byte) : (m.write a v).read a = v := by
  simp [Memory.read_write]

theorem Memory.read_write_of_ne (m : Memory) {a b : Nat} (v : Byte) (h : b ≠ a) :
    (m.write a v).read b = m.read b := by
  simp [Memory.read_write, h]

theorem Memory.wf_nil : Memory.wf [] := by simp [Memory.wf]

theorem Memory.wf_unlist {m : Memory} (h : m.wf) (a : Nat) : (m.unlist a).wf :=
  ⟨h.1.filter _, fun c hc => h.2 c (List.mem_filter.mp hc).1⟩

theorem Memory.mem_enlist {m : Memory} {a : Nat} {v : Byte} {c : Host.Cell} (h : c ∈ m.enlist a v) :
    c = (a, v) ∨ c ∈ m := by
  induction m with
  | nil => simpa [Memory.enlist] using h
  | cons d m ih =>
    obtain ⟨d, w⟩ := d
    simp only [Memory.enlist] at h
    split at h
    · simpa using h
    · rcases List.mem_cons.mp h with rfl | h
      · simp
      · rcases ih h with rfl | h <;> simp_all

theorem Memory.wf_enlist {m : Memory} (h : m.wf) {a : Nat} (ha : a < memSize) (hn : ∀ c ∈ m, c.1 ≠ a)
    {v : Byte} (hv : v ≠ Memory.fill) : (m.enlist a v).wf := by
  constructor
  · obtain ⟨hs, -⟩ := h
    induction m with
    | nil => simp [Memory.enlist]
    | cons c m ih =>
      obtain ⟨d, w⟩ := c
      have hd : d ≠ a := hn (d, w) (by simp)
      have hs' := List.pairwise_cons.mp hs
      simp only [Memory.enlist]
      split
      · rename_i hlt
        refine List.pairwise_cons.mpr ⟨?_, hs⟩
        intro c hc
        rcases List.mem_cons.mp hc with rfl | hc
        · exact hlt
        · exact lt_trans hlt (hs'.1 c hc)
      · rename_i hge
        refine List.pairwise_cons.mpr ⟨?_, ih (fun c hc => hn c (by simp [hc])) hs'.2⟩
        intro c hc
        rcases Memory.mem_enlist hc with rfl | hc
        · show d < a
          omega
        · exact hs'.1 c hc
  · intro c hc
    rcases Memory.mem_enlist hc with rfl | hc
    · exact ⟨ha, hv⟩
    · exact h.2 c hc

/-- A write inside the address space keeps the canonical form. -/
theorem Memory.wf_write {m : Memory} (h : m.wf) {a : Nat} (ha : a < memSize) (v : Byte) : (m.write a v).wf := by
  unfold Memory.write
  split
  · exact Memory.wf_unlist h a
  · rename_i hv
    exact Memory.wf_enlist (Memory.wf_unlist h a) ha Memory.not_mem_unlist hv

/-- Placing bytes keeps the canonical form. -/
theorem Memory.wf_place {m : Memory} (h : m.wf) (a : Nat) (bs : List Byte) : (m.place a bs).wf := by
  induction bs generalizing m a with
  | nil => exact h
  | cons b bs ih =>
    simp only [Memory.place]
    split
    · rename_i ha
      exact ih (Memory.wf_write h ha b) (a + 1)
    · exact h

/-- Placing bytes leaves every cell below the first address. -/
theorem Memory.read_place_of_lt (m : Memory) (bs : List Byte) {a b : Nat} (h : b < a) :
    (m.place a bs).read b = m.read b := by
  induction bs generalizing m a with
  | nil => rfl
  | cons c bs ih =>
    simp only [Memory.place]
    split
    · rw [ih _ (by omega), Memory.read_write_of_ne _ _ (by omega)]
    · rfl

/-- The memory of the state after reset has the canonical form. -/
theorem State.reset_mem_wf : State.reset.mem.wf := Memory.wf_nil

end Sys2Proof.Machine
end

