-- ==== Sys2Proof/Laws/State.lean ====
section
/-! SUPPORT. One lemma per field of State per update, so that no later proof unfolds a record update. -/

namespace Sys2Proof.Machine

variable (s : State)

@[simp] theorem State.setX_regs (i : Reg) (v : Byte) : (s.setX i v).regs = s.regs.set i.val v i.isLt := rfl
@[simp] theorem State.setX_pc (i : Reg) (v : Byte) : (s.setX i v).pc = s.pc := rfl
@[simp] theorem State.setX_fl (i : Reg) (v : Byte) : (s.setX i v).fl = s.fl := rfl
@[simp] theorem State.setX_run (i : Reg) (v : Byte) : (s.setX i v).run = s.run := rfl
@[simp] theorem State.setX_err (i : Reg) (v : Byte) : (s.setX i v).err = s.err := rfl
@[simp] theorem State.setX_mem (i : Reg) (v : Byte) : (s.setX i v).mem = s.mem := rfl
@[simp] theorem State.setX_out (i : Reg) (v : Byte) : (s.setX i v).out = s.out := rfl

@[simp] theorem State.setPc_regs (p : Pc) : (s.setPc p).regs = s.regs := rfl
@[simp] theorem State.setPc_pc (p : Pc) : (s.setPc p).pc = p := rfl
@[simp] theorem State.setPc_fl (p : Pc) : (s.setPc p).fl = s.fl := rfl
@[simp] theorem State.setPc_run (p : Pc) : (s.setPc p).run = s.run := rfl
@[simp] theorem State.setPc_err (p : Pc) : (s.setPc p).err = s.err := rfl
@[simp] theorem State.setPc_mem (p : Pc) : (s.setPc p).mem = s.mem := rfl
@[simp] theorem State.setPc_out (p : Pc) : (s.setPc p).out = s.out := rfl
@[simp] theorem State.setPc_x (p : Pc) (r : Reg) : (s.setPc p).x r = s.x r := rfl
@[simp] theorem State.setPc_sp (p : Pc) : (s.setPc p).sp = s.sp := rfl

@[simp] theorem State.setEqual_regs : (s.setEqual).regs = s.regs := rfl
@[simp] theorem State.setEqual_pc : (s.setEqual).pc = s.pc := rfl
@[simp] theorem State.setEqual_fl : (s.setEqual).fl = s.fl ||| 0x01 := rfl
@[simp] theorem State.setEqual_run : (s.setEqual).run = s.run := rfl
@[simp] theorem State.setEqual_err : (s.setEqual).err = s.err := rfl
@[simp] theorem State.setEqual_mem : (s.setEqual).mem = s.mem := rfl
@[simp] theorem State.setEqual_out : (s.setEqual).out = s.out := rfl
@[simp] theorem State.setEqual_x (r : Reg) : (s.setEqual).x r = s.x r := rfl
@[simp] theorem State.setEqual_sp : (s.setEqual).sp = s.sp := rfl

@[simp] theorem State.setMem_regs (m : Memory) : (s.setMem m).regs = s.regs := rfl
@[simp] theorem State.setMem_pc (m : Memory) : (s.setMem m).pc = s.pc := rfl
@[simp] theorem State.setMem_fl (m : Memory) : (s.setMem m).fl = s.fl := rfl
@[simp] theorem State.setMem_run (m : Memory) : (s.setMem m).run = s.run := rfl
@[simp] theorem State.setMem_err (m : Memory) : (s.setMem m).err = s.err := rfl
@[simp] theorem State.setMem_mem (m : Memory) : (s.setMem m).mem = m := rfl
@[simp] theorem State.setMem_out (m : Memory) : (s.setMem m).out = s.out := rfl
@[simp] theorem State.setMem_x (m : Memory) (r : Reg) : (s.setMem m).x r = s.x r := rfl
@[simp] theorem State.setMem_sp (m : Memory) : (s.setMem m).sp = s.sp := rfl

@[simp] theorem State.raise_regs (e : ErrKind) : (s.raise e).regs = s.regs := rfl
@[simp] theorem State.raise_pc (e : ErrKind) : (s.raise e).pc = s.pc := rfl
@[simp] theorem State.raise_fl (e : ErrKind) : (s.raise e).fl = s.fl := rfl
@[simp] theorem State.raise_run (e : ErrKind) : (s.raise e).run = .faulted := rfl
@[simp] theorem State.raise_err (e : ErrKind) : (s.raise e).err = e := rfl
@[simp] theorem State.raise_mem (e : ErrKind) : (s.raise e).mem = s.mem := rfl
@[simp] theorem State.raise_out (e : ErrKind) : (s.raise e).out = s.out := rfl
@[simp] theorem State.raise_x (e : ErrKind) (r : Reg) : (s.raise e).x r = s.x r := rfl
@[simp] theorem State.raise_sp (e : ErrKind) : (s.raise e).sp = s.sp := rfl

@[simp] theorem State.halt_regs : (s.halt).regs = s.regs := rfl
@[simp] theorem State.halt_pc : (s.halt).pc = s.pc := rfl
@[simp] theorem State.halt_fl : (s.halt).fl = s.fl := rfl
@[simp] theorem State.halt_run : (s.halt).run = .halted := rfl
@[simp] theorem State.halt_err : (s.halt).err = s.err := rfl
@[simp] theorem State.halt_mem : (s.halt).mem = s.mem := rfl
@[simp] theorem State.halt_out : (s.halt).out = s.out := rfl
@[simp] theorem State.halt_x (r : Reg) : (s.halt).x r = s.x r := rfl
@[simp] theorem State.halt_sp : (s.halt).sp = s.sp := rfl

@[simp] theorem State.emit_regs (v : Byte) : (s.emit v).regs = s.regs := rfl
@[simp] theorem State.emit_pc (v : Byte) : (s.emit v).pc = s.pc := rfl
@[simp] theorem State.emit_fl (v : Byte) : (s.emit v).fl = s.fl := rfl
@[simp] theorem State.emit_run (v : Byte) : (s.emit v).run = s.run := rfl
@[simp] theorem State.emit_err (v : Byte) : (s.emit v).err = s.err := rfl
@[simp] theorem State.emit_mem (v : Byte) : (s.emit v).mem = s.mem := rfl
@[simp] theorem State.emit_out (v : Byte) : (s.emit v).out = s.out ++ [v] := rfl
@[simp] theorem State.emit_x (v : Byte) (r : Reg) : (s.emit v).x r = s.x r := rfl
@[simp] theorem State.emit_sp (v : Byte) : (s.emit v).sp = s.sp := rfl

/-- A register written reads as the value written (10_state.md R30). -/
@[simp] theorem State.setX_x_self (i : Reg) (v : Byte) : (s.setX i v).x i = v := by
  simp [State.x, State.setX]

/-- A register write leaves every other register. -/
theorem State.setX_x_of_ne (i r : Reg) (v : Byte) (h : r ≠ i) : (s.setX i v).x r = s.x r := by
  have h' : i.val ≠ r.val := fun e => h (Fin.ext e.symm)
  simp [State.x, State.setX, h']

/-- A register write, seen from any register. -/
theorem State.setX_x (i r : Reg) (v : Byte) : (s.setX i v).x r = if r = i then v else s.x r := by
  by_cases h : r = i
  · subst h; simp
  · simp [h, State.setX_x_of_ne]

@[simp] theorem State.setSp_eq (v : Byte) : s.setSp v = s.setX 7 v := rfl

theorem State.sp_eq : s.sp = s.x 7 := rfl

@[simp] theorem State.setX_sp_self (v : Byte) : (s.setX 7 v).sp = v := by
  simp [State.sp, spIndex]

/-- Two states with the same registers, read one by one, and the same other fields are the same state. -/
theorem State.ext_x {s t : State} (hx : ∀ r, s.x r = t.x r) (hpc : s.pc = t.pc) (hfl : s.fl = t.fl)
    (hrun : s.run = t.run) (herr : s.err = t.err) (hmem : s.mem = t.mem) (hout : s.out = t.out) : s = t := by
  obtain ⟨r, p, f, u, e, m, o⟩ := s
  obtain ⟨r', p', f', u', e', m', o'⟩ := t
  have hr : r = r' := Vector.ext fun i hi => hx ⟨i, hi⟩
  simp_all

end Sys2Proof.Machine
end

