-- ==== Sys2Proof/Laws/Ops.lean ====
section
/-! SUPPORT. One lemma per shared operation that says everything it can do. -/

namespace Sys2Proof.Machine

theorem State.memRead_of_lt (s : State) {a : Nat} (h : a < 256) : s.memRead a = .ok (s.mem.read a) := by
  simp [State.memRead, memSize, h]

theorem State.memRead_of_ge (s : State) {a : Nat} (h : 256 ≤ a) : s.memRead a = .error .addressError := by
  simp [State.memRead, memSize, Nat.not_lt.mpr h]

theorem State.memWrite_of_lt (s : State) {a : Nat} (h : a < 256) (v : Byte) :
    s.memWrite a v = .ok (s.setMem (s.mem.write a v)) := by
  simp [State.memWrite, memSize, h]

/-- A push always succeeds: SP is one lower and the new top cell holds the value (43_stack.md R160, R167). -/
theorem State.push_eq (s : State) (v : Byte) :
    s.push v = .ok ((s.setX 7 (s.x 7 - 1)).setMem (s.mem.write (s.x 7 - 1).toNat v)) := by
  simp only [State.push, State.setSp_eq, State.sp_eq, State.setX_x_self]
  rw [State.memWrite_of_lt _ (by omega)]
  rfl

/-- A pop always succeeds: the top byte, and SP one higher (43_stack.md R161, R167). -/
theorem State.pop_eq (s : State) :
    s.pop = .ok (s.mem.read (s.x 7).toNat, s.setX 7 (s.x 7 + 1)) := by
  simp only [State.pop, State.setSp_eq, State.sp_eq]
  rw [State.memRead_of_lt _ (by omega)]
  rfl

/-- A fetch at a fetchable `pc` gives the three bytes there (40_execution_cycle.md R123). -/
theorem State.fetch_of_le (s : State) (h : s.pc.toNat ≤ 0xFD) :
    s.fetch = .ok ⟨s.mem.read s.pc.toNat, s.mem.read (s.pc.toNat + 1), s.mem.read (s.pc.toNat + 2)⟩ := by
  simp only [State.fetch]
  rw [State.memRead_of_lt _ (by omega), State.memRead_of_lt _ (by omega), State.memRead_of_lt _ (by omega)]
  rfl

/-- A fetch anywhere else raises AddressError (40_execution_cycle.md R123). -/
theorem State.fetch_of_gt (s : State) (h : s.pc.toNat > 0xFD) : s.fetch = .error .addressError := by
  simp only [State.fetch]
  by_cases h0 : s.pc.toNat < 256
  · rw [State.memRead_of_lt _ h0]
    by_cases h1 : s.pc.toNat + 1 < 256
    · rw [State.memRead_of_lt _ h1, State.memRead_of_ge _ (by omega)]
      rfl
    · rw [State.memRead_of_ge (a := s.pc.toNat + 1) _ (by omega)]
      rfl
  · rw [State.memRead_of_ge (a := s.pc.toNat) _ (by omega)]
    rfl

@[simp] theorem State.retire_ok (s t : State) (ir : Byte) : s.retire ir (.ok t) = .next (t.advance ir) := rfl

@[simp] theorem State.advance_of_setsPc (s : State) {ir : Byte} (h : setsPc ir = true) : s.advance ir = s := by
  simp [State.advance, h]

theorem State.advance_of_not_setsPc (s : State) {ir : Byte} (h : setsPc ir = false) :
    s.advance ir = s.setPc (s.nextPc ir) := by
  simp [State.advance, h]

@[simp] theorem zext9_toNat (v : Byte) : (zext9 v).toNat = v.toNat := by
  simp [zext9]
  omega

/-- The advance as numbers: no wrap while the sum fits the 9 bits (40_execution_cycle.md R125). -/
theorem State.nextPc_toNat (s : State) {ir : Byte} (h : s.pc.toNat + operandCount ir + 1 < 512) :
    (s.nextPc ir).toNat = s.pc.toNat + operandCount ir + 1 := by
  simp [State.nextPc, BitVec.toNat_add]
  omega

theorem State.equal_setEqual (s : State) : s.setEqual.equal = true := by
  simp [State.equal, State.setEqual]

/-- Setting E leaves the reserved bits as they were (45_compare_and_jump.md R180). -/
theorem State.setEqual_fl_reserved (s : State) {k : Nat} (hk : k ≠ 0) :
    s.setEqual.fl.getLsbD k = s.fl.getLsbD k := by
  simp only [State.setEqual_fl, BitVec.getLsbD_or]
  rcases k with _ | k
  · exact absurd rfl hk
  · simp

theorem State.setEqual_of_equal (s : State) (h : s.equal = true) : s.setEqual = s := by
  have : s.fl ||| 0x01 = s.fl := by
    apply BitVec.eq_of_getLsbD_eq
    intro k _
    rcases k with _ | k
    · simpa [State.equal] using h
    · simp
  obtain ⟨r, p, f, u, e, m, o⟩ := s
  simpa [State.setEqual] using this

/-- The reading of E is untouched by the updates that keep `fl`. -/
@[simp] theorem State.setPc_equal (s : State) (p : Pc) : (s.setPc p).equal = s.equal := rfl

/-- After a comparison E is set if the values were equal or it was set before (45_compare_and_jump.md R184). -/
theorem State.recordEquality_equal (s : State) (p q : Byte) :
    (s.recordEquality p q).equal = (decide (p = q) || s.equal) := by
  unfold State.recordEquality
  split
  · rename_i h
    simp [State.equal_setEqual, h]
  · rename_i h
    simp [h]

@[simp] theorem State.recordEquality_pc (s : State) (p q : Byte) : (s.recordEquality p q).pc = s.pc := by
  unfold State.recordEquality; split <;> rfl

@[simp] theorem State.recordEquality_run (s : State) (p q : Byte) : (s.recordEquality p q).run = s.run := by
  unfold State.recordEquality; split <;> rfl

@[simp] theorem State.recordEquality_err (s : State) (p q : Byte) : (s.recordEquality p q).err = s.err := by
  unfold State.recordEquality; split <;> rfl

@[simp] theorem State.recordEquality_mem (s : State) (p q : Byte) : (s.recordEquality p q).mem = s.mem := by
  unfold State.recordEquality; split <;> rfl

@[simp] theorem State.recordEquality_out (s : State) (p q : Byte) : (s.recordEquality p q).out = s.out := by
  unfold State.recordEquality; split <;> rfl

@[simp] theorem State.recordEquality_regs (s : State) (p q : Byte) : (s.recordEquality p q).regs = s.regs := by
  unfold State.recordEquality; split <;> rfl

@[simp] theorem State.recordEquality_x (s : State) (p q : Byte) (r : Reg) : (s.recordEquality p q).x r = s.x r := by
  unfold State.recordEquality; split <;> rfl

end Sys2Proof.Machine
end

