-- ==== Sys2Proof/Laws/Exec.lean ====
section
/-! SUPPORT. The next state of each instruction, written out once: `exec` in terms of the plain updates. -/

namespace Sys2Proof.Machine

variable (s : State) (a b : Reg)

theorem exec_hlt : exec .hlt s = .next (s.halt.setPc (s.pc + 1)) := rfl

theorem exec_ldi (imm : Byte) : exec (.ldi a imm) s = .next ((s.setX a imm).setPc (s.pc + 3)) := rfl

theorem exec_prn : exec (.prn a) s = .next ((s.emit (s.x a)).setPc (s.pc + 2)) := rfl

theorem exec_mul : exec (.mul a b) s = .next ((s.setX a (s.x a * s.x b)).setPc (s.pc + 3)) := rfl

theorem exec_add : exec (.add a b) s = .next ((s.setX a (s.x a + s.x b)).setPc (s.pc + 3)) := rfl

theorem exec_push : exec (.push a) s = .next
    (((s.setX 7 (s.x 7 - 1)).setMem (s.mem.write (s.x 7 - 1).toNat (s.x a))).setPc (s.pc + 2)) := by
  simp only [exec, execPush, State.push_eq]
  rfl

theorem exec_pop : exec (.pop a) s = .next
    (((s.setX 7 (s.x 7 + 1)).setX a (s.mem.read (s.x 7).toNat)).setPc (s.pc + 2)) := by
  simp only [exec, execPop, State.pop_eq]
  rfl

theorem exec_call : exec (.call a) s = .next
    (((s.setX 7 (s.x 7 - 1)).setMem (s.mem.write (s.x 7 - 1).toNat ((s.pc + 2).setWidth 8))).setPc
      (zext9 ((s.setX 7 (s.x 7 - 1)).x a))) := by
  simp only [exec, execCall, State.push_eq]
  rfl

theorem exec_ret : exec .ret s = .next
    ((s.setX 7 (s.x 7 + 1)).setPc (zext9 (s.mem.read (s.x 7).toNat))) := by
  simp only [exec, execRet, State.pop_eq]
  rfl

theorem exec_cmp : exec (.cmp a b) s = .next
    ((s.recordEquality (s.x a) (s.x b)).setPc (s.pc + 3)) := by
  simp only [exec, execCmp, State.recordEquality]
  split <;> rfl

theorem exec_jmp : exec (.jmp a) s = .next (s.setPc (zext9 (s.x a))) := rfl

theorem exec_jeq : exec (.jeq a) s = .next
    (s.setPc (if s.equal then zext9 (s.x a) else s.pc + 2)) := rfl

theorem exec_jne : exec (.jne a) s = .next
    (s.setPc (if s.equal then s.pc + 2 else zext9 (s.x a))) := rfl

end Sys2Proof.Machine
end

