-- ==== Sys2Proof/Laws/PerInstr.lean ====
section
/-! SUPPORT. The per-instruction statement about the encoding: its first byte is the opcode byte, and its length
is the one the spec's table gives, 1 to 3 bytes (30_encoding.md R90, R93). -/

namespace Sys2Proof.Laws.EncodingShape

/-- The shape of an instruction's encoding under any opcode map. -/
def Statement (i : Instr) : Prop :=
  ∀ m : OpcodeMap, (encode m i).head? = some (m.byte i.mnemonic) ∧
    (encode m i).length = i.mnemonic.operands + 1 ∧ (encode m i).length ≤ 3

theorem hlt : Statement .hlt := fun _ => ⟨rfl, rfl, by simp [encode]⟩
theorem ldi (a : Reg) (imm : Byte) : Statement (.ldi a imm) := fun _ => ⟨rfl, rfl, le_refl 3⟩
theorem prn (a : Reg) : Statement (.prn a) := fun _ => ⟨rfl, rfl, by simp [encode]⟩
theorem mul (a b : Reg) : Statement (.mul a b) := fun _ => ⟨rfl, rfl, le_refl 3⟩
theorem add (a b : Reg) : Statement (.add a b) := fun _ => ⟨rfl, rfl, le_refl 3⟩
theorem push (a : Reg) : Statement (.push a) := fun _ => ⟨rfl, rfl, by simp [encode]⟩
theorem pop (a : Reg) : Statement (.pop a) := fun _ => ⟨rfl, rfl, by simp [encode]⟩
theorem call (a : Reg) : Statement (.call a) := fun _ => ⟨rfl, rfl, by simp [encode]⟩
theorem ret : Statement .ret := fun _ => ⟨rfl, rfl, by simp [encode]⟩
theorem cmp (a b : Reg) : Statement (.cmp a b) := fun _ => ⟨rfl, rfl, le_refl 3⟩
theorem jmp (a : Reg) : Statement (.jmp a) := fun _ => ⟨rfl, rfl, by simp [encode]⟩
theorem jeq (a : Reg) : Statement (.jeq a) := fun _ => ⟨rfl, rfl, by simp [encode]⟩
theorem jne (a : Reg) : Statement (.jne a) := fun _ => ⟨rfl, rfl, by simp [encode]⟩

end Sys2Proof.Laws.EncodingShape
end

