-- ==== Sys2Proof/Laws/Step.lean ====
section
/-! SUPPORT. Everything a step can do, said once. -/

namespace Sys2Proof.Machine

/-- The bytes a fetch at a fetchable `pc` delivers. -/
def State.bytesAtPc (s : State) : Fetched :=
  ⟨s.mem.read s.pc.toNat, s.mem.read (s.pc.toNat + 1), s.mem.read (s.pc.toNat + 2)⟩

/-- If a step answers a next state, the machine was Running and one of these happened: the fetch faulted, the
decoder refused the bytes, or the decoded instruction was executed. -/
theorem stepWith_cases {m : OpcodeMap} {s t : State} (h : stepWith m s = .next t) :
    s.run = .running ∧
    ((s.pc.toNat > 0xFD ∧ t = s.raise .addressError) ∨
     (s.pc.toNat ≤ 0xFD ∧ ∃ r, decode m s.bytesAtPc = .error r ∧ t = s.raise (errOf r)) ∨
     (s.pc.toNat ≤ 0xFD ∧ ∃ i, decode m s.bytesAtPc = .ok i ∧ exec i s = .next t)) := by
  unfold stepWith at h
  split at h
  · cases h
  · cases h
  · rename_i hrun
    refine ⟨hrun, ?_⟩
    by_cases hpc : s.pc.toNat ≤ 0xFD
    · rw [State.fetch_of_le s hpc] at h
      simp only at h
      split at h
      · rename_i r hr
        cases h
        exact .inr (.inl ⟨hpc, r, hr, rfl⟩)
      · rename_i i hi
        exact .inr (.inr ⟨hpc, i, hi, h⟩)
    · rw [State.fetch_of_gt s (by omega)] at h
      cases h
      exact .inl ⟨by omega, rfl⟩

/-- A step does not refuse. -/
theorem stepWith_ne_refused (m : OpcodeMap) (s : State) (r : Refusal) : stepWith m s ≠ .refused r := by
  unfold stepWith
  split
  · simp
  · simp
  · split
    · simp
    · split
      · simp
      · rename_i i _
        cases i <;>
          simp [exec_hlt, exec_ldi, exec_prn, exec_mul, exec_add, exec_push, exec_pop, exec_call, exec_ret,
            exec_cmp, exec_jmp, exec_jeq, exec_jne]

end Sys2Proof.Machine
end

