-- ==== Sys2Proof/Laws/Session.lean ====
section
/-! SUPPORT. Runs under fuel and the host's interactions: what each does in each phase. -/

namespace Sys2Proof

open Machine

/-- Where no step is enabled a run stays where it is. -/
theorem runFor_of_not_running (n : Nat) {s : State} (h : s.run ≠ .running) : runFor n s = s := by
  cases n with
  | zero => rfl
  | succ n =>
    have : ∀ t, step s ≠ .next t := fun t ht => h (stepWith_cases ht).1
    simp only [runFor]
    split <;> simp_all

/-- Fuel adds up: a run interrupted by nothing is one run. -/
theorem runFor_add (n k : Nat) (s : State) : runFor (n + k) s = runFor k (runFor n s) := by
  induction n generalizing s with
  | zero => simp [runFor]
  | succ n ih =>
    rw [show n + 1 + k = (n + k) + 1 by omega]
    by_cases h : s.run = .running
    · simp only [runFor]
      split
      · exact ih _
      · rename_i f hf
        simp [step, stepWith, h] at hf
        split at hf
        · cases hf
        · split at hf
          · cases hf
          · rename_i i _
            cases i <;>
              simp [exec_hlt, exec_ldi, exec_prn, exec_mul, exec_add, exec_push, exec_pop, exec_call, exec_ret,
                exec_cmp, exec_jmp, exec_jeq, exec_jne] at hf
      · rename_i r hr
        exact absurd hr (stepWith_ne_refused _ _ _)
    · rw [runFor_of_not_running _ h, runFor_of_not_running _ h, runFor_of_not_running _ h]

namespace Machine

@[simp] theorem Session.load_inReset (c : State) (image : List Byte) :
    Session.load ⟨.inReset, c⟩ image = some ⟨.inReset, c.setMem (launchMemory image)⟩ := rfl

@[simp] theorem Session.load_launched (c : State) (image : List Byte) :
    Session.load ⟨.launched, c⟩ image = none := rfl

@[simp] theorem Session.loadText_launched (c : State) (lines : List (List Char)) :
    Session.loadText ⟨.launched, c⟩ lines = none := rfl

@[simp] theorem Session.run_inReset (c : State) (fuel : Nat) : Session.run ⟨.inReset, c⟩ fuel = none := rfl

@[simp] theorem Session.run_launched (c : State) (fuel : Nat) :
    Session.run ⟨.launched, c⟩ fuel = some (⟨.launched, runFor fuel c⟩, (runFor fuel c).report) := rfl

@[simp] theorem Session.reset_core (s : Session) : s.reset.core = s.core.hostReset := rfl
@[simp] theorem Session.reset_phase (s : Session) : s.reset.phase = .inReset := rfl
@[simp] theorem Session.start_core (s : Session) : s.start.core = s.core.hostReset := rfl
@[simp] theorem Session.start_phase (s : Session) : s.start.phase = .launched := rfl

end Machine

end Sys2Proof
end

