-- ==== Sys2Proof/Tests/Slice0.lean ====
section
/-! SUPPORT. Tests of single steps, and witnesses that the statements' hypotheses can be met. Expected results are the
spec's: 95_test_vectors.md (its vector's name is in each comment) and 30_encoding.md R95. -/

namespace Sys2Proof.Tests

open Machine Claims

/-- The default start state of 95_test_vectors.md section 0: the launch state, with `bytes` at `pc`. -/
def st (pc : Pc) (bytes : List Byte) : State :=
  { State.reset with pc := pc, mem := Memory.place [] pc.toNat bytes }

/-- The same with some registers given. -/
def stx (pc : Pc) (bytes : List Byte) (rs : List (Reg × Byte)) : State :=
  rs.foldl (fun s r => s.setX r.1 r.2) (st pc bytes)

/-- One cell of memory more. -/
def cell (s : State) (a : Nat) (v : Byte) : State := s.setMem (s.mem.write a v)

/-- Some reading of the next state. -/
def after {α : Type} (s : State) (f : State → α) : Option α :=
  match step s with
  | .next t => some (f t)
  | .fault _ => none
  | .refused _ => none

/-- A step that must end in a fault with everything but `run` and `err` as before. -/
def faults (s : State) (e : ErrKind) : Bool :=
  after s id == some { s with run := .faulted, err := e }

/-! ### Well-formedness: each check refuses an ill-formed term -/

theorem test_legal_default : opcodes.Legal := by decide
/-- Another legal map, so that the parameters are not tied to the defaults (30_encoding.md R97). -/
theorem test_legal_other : OpcodeMap.Legal { opcodes with add := 0x80, ret := 0x10, jeq := 0x7F } := by decide
theorem test_source_byte_refused : ¬ OpcodeMap.SourceBytes { opcodes with hlt := 0x02 } := by decide
theorem test_equal_bytes_refused : ¬ OpcodeMap.Distinct { opcodes with push := 0x46 } := by decide
theorem test_operand_count_refused : ¬ OpcodeMap.BitsFit { opcodes with add := 0x60 } := by decide
theorem test_sets_pc_refused : ¬ OpcodeMap.BitsFit { opcodes with call := 0x40 } := by decide
theorem test_unknown_opcode_ill_formed : ¬ Fetched.WellFormed opcodes ⟨0x00, 0, 0⟩ := by decide
theorem test_operand_a_ill_formed : ¬ Fetched.WellFormed opcodes ⟨0x82, 8, 1⟩ := by decide
theorem test_operand_b_ill_formed : ¬ Fetched.WellFormed opcodes ⟨0xA2, 0, 8⟩ := by decide

/-! ### Decoding: a word of each instruction, written out from its row of 30_encoding.md R95 -/

theorem test_decode_hlt : decode opcodes ⟨0b00000001, 0xFF, 0xFF⟩ = .ok .hlt := by decide
theorem test_decode_ldi : decode opcodes ⟨0b10000010, 3, 0xFF⟩ = .ok (.ldi 3 0xFF) := by decide
theorem test_decode_prn : decode opcodes ⟨0b01000111, 2, 0xC3⟩ = .ok (.prn 2) := by decide
theorem test_decode_mul : decode opcodes ⟨0b10100010, 1, 7⟩ = .ok (.mul 1 7) := by decide
theorem test_decode_add : decode opcodes ⟨0b10100000, 3, 4⟩ = .ok (.add 3 4) := by decide
theorem test_decode_push : decode opcodes ⟨0b01000101, 7, 8⟩ = .ok (.push 7) := by decide
theorem test_decode_pop : decode opcodes ⟨0b01000110, 1, 8⟩ = .ok (.pop 1) := by decide
theorem test_decode_call : decode opcodes ⟨0b01010000, 2, 8⟩ = .ok (.call 2) := by decide
theorem test_decode_ret : decode opcodes ⟨0b00010001, 0xAA, 0xBB⟩ = .ok .ret := by decide
theorem test_decode_cmp : decode opcodes ⟨0b10100111, 0, 7⟩ = .ok (.cmp 0 7) := by decide
theorem test_decode_jmp : decode opcodes ⟨0b01010100, 3, 8⟩ = .ok (.jmp 3) := by decide
theorem test_decode_jeq : decode opcodes ⟨0b01010101, 6, 8⟩ = .ok (.jeq 6) := by decide
theorem test_decode_jne : decode opcodes ⟨0b01010110, 5, 8⟩ = .ok (.jne 5) := by decide
theorem test_decode_unknown : decode opcodes ⟨0xC1, 0, 0⟩ = .error (.unknownOpcode 0xC1) := by decide
theorem test_decode_index_b : decode opcodes ⟨0xA0, 1, 0x0A⟩ = .error (.registerIndex 0x0A) := by decide
/-- Operand_a is bits 15..8 and operand_b bits 23..16 of a table word; the bits above a row's width are 0. -/
theorem test_table_word : decodeTableWord 24 0x080082 = some (.ldi 0 8) := by decide
theorem test_table_word_short : decodeTableWord 8 0xFF82 = some (.ldi 0 0) := by decide
theorem test_word_after_reset :
    step (State.reset.withFetchWord 24 0xFF0382) = exec (.ldi 3 0xFF) (State.reset.withFetchWord 24 0xFF0382) := rfl

/-! ### Single steps of 95_test_vectors.md -/

/-- V-HLT-1. -/
theorem test_hlt_pc : after (st 0x00B [0x01]) (fun t => (t.run, t.pc)) = some (.halted, 0x00C) := by decide
/-- V-HLT-3: the highest address at which anything executes. -/
theorem test_hlt_highest : after (st 0x0FD [0x01]) (fun t => (t.run, t.pc)) = some (.halted, 0x0FE) := by decide
/-- V-LDI-3. -/
theorem test_ldi_sp : after (st 0 [0x82, 0x07, 0x80]) (fun t => (t.x 7, t.pc)) = some (0x80, 3) := by decide
/-- V-LDI-5: `pc` reaches 0x100. -/
theorem test_ldi_top : after (stx 0x0FD [0x82, 5, 0] [(5, 0x77)]) (fun t => (t.x 5, t.pc)) = some (0, 0x100) := by decide
/-- V-PRN-1. -/
theorem test_prn_72 : after (stx 9 [0x47, 0] [(0, 0x48)]) (fun t => (t.out, t.pc)) = some ([72], 0x00B) := by decide
/-- V-PRN-2. -/
theorem test_prn_sp : after (st 0 [0x47, 7]) State.out = some [244] := by decide
/-- V-MUL-2. -/
theorem test_mul_wraps : after (stx 0 [0xA2, 0, 1] [(0, 0xFF), (1, 2)]) (State.x · 0) = some 0xFE := by decide
/-- V-MUL-6: SP as the second factor. -/
theorem test_mul_sp : after (stx 0 [0xA2, 1, 7] [(1, 2)]) (fun t => (t.x 1, t.x 7)) = some (0xE8, 0xF4) := by decide
/-- V-ADD-2. -/
theorem test_add_wraps : after (stx 0 [0xA0, 0, 1] [(0, 0xFF), (1, 1)]) (fun t => (t.x 0, t.fl)) = some (0, 0) := by decide
/-- V-ADD-3: source is destination. -/
theorem test_add_doubles : after (stx 0 [0xA0, 2, 2] [(2, 0x80)]) (State.x · 2) = some 0 := by decide
/-- V-PUSH-2: SP wraps. -/
theorem test_push_wraps : after (stx 0x10 [0x45, 1] [(1, 0x99), (7, 0)])
    (fun t => (t.x 7, t.mem.read 0xFF, t.pc)) = some (0xFF, 0x99, 0x12) := by decide
/-- V-PUSH-3: PUSH R7 stores the old SP. -/
theorem test_push_sp : after (st 0 [0x45, 7]) (fun t => (t.x 7, t.mem.read 0xF3)) = some (0xF3, 0xF4) := by decide
/-- V-POP-2: SP wraps. -/
theorem test_pop_wraps : after (cell (stx 0 [0x46, 1] [(7, 0xFF)]) 0xFF 0x55) (fun t => (t.x 1, t.x 7)) = some (0x55, 0) := by decide
/-- V-POP-3: POP R7 keeps the popped byte. -/
theorem test_pop_sp : after (cell (stx 0 [0x46, 7] [(7, 0xF3)]) 0xF3 0x10) (State.x · 7) = some 0x10 := by decide
/-- V-CALL-2: the largest return address. -/
theorem test_call_top : after (stx 0x0FD [0x50, 0] [(0, 0x40)]) (fun t => (t.mem.read 0xF3, t.pc)) = some (0xFF, 0x40) := by decide
/-- V-CALL-3: CALL R7 jumps to the decremented SP. -/
theorem test_call_sp : after (st 0 [0x50, 7]) (fun t => (t.mem.read 0xF3, t.pc)) = some (2, 0x0F3) := by decide
/-- V-RET-1. -/
theorem test_ret : after (cell (stx 0x0B [0x11] [(7, 0xF3)]) 0xF3 8) (fun t => (t.pc, t.x 7)) = some (8, 0xF4) := by decide
/-- V-RET-2: an empty stack. -/
theorem test_ret_empty : after (st 5 [0x11]) (fun t => (t.pc, t.x 7)) = some (0, 0xF5) := by decide
/-- V-CMP-1. -/
theorem test_cmp_equal : after (stx 0 [0xA7, 0, 1] [(0, 5), (1, 5)]) State.fl = some 1 := by decide
/-- V-CMP-3: the sticky case. -/
theorem test_cmp_sticky : after { stx 0 [0xA7, 0, 1] [(0, 5), (1, 6)] with fl := 1 } State.fl = some 1 := by decide
/-- V-JMP-3: the target is not checked. -/
theorem test_jmp_unchecked : after (stx 0 [0x54, 0] [(0, 0xFF)]) State.pc = some 0x0FF := by decide
/-- V-JMP-4. -/
theorem test_jmp_sp : after (st 0 [0x54, 7]) State.pc = some 0x0F4 := by decide
/-- V-JEQ-1. -/
theorem test_jeq_taken : after { stx 0x10 [0x55, 2] [(2, 0x30)] with fl := 1 } State.pc = some 0x30 := by decide
/-- V-JEQ-5: not taken at the top. -/
theorem test_jeq_not_taken : after (stx 0x0FD [0x55, 0] [(0, 0x12)]) State.pc = some 0x0FF := by decide
/-- V-JNE-1. -/
theorem test_jne_taken : after (stx 0x10 [0x56, 2] [(2, 0x30)]) State.pc = some 0x30 := by decide
/-- V-JNE-2. -/
theorem test_jne_not_taken : after { stx 0x10 [0x56, 2] [(2, 0x30)] with fl := 1 } State.pc = some 0x12 := by decide
/-- V-FLT-1: the fill byte is no instruction. -/
theorem test_fault_fill : faults (st 0 []) .decodeError = true := by decide
/-- V-FLT-6 and V-FLT-8: AddressError comes first. -/
theorem test_fault_address : faults (st 0x100 []) .addressError = true ∧
    faults (st 0x0FE [0x82, 8]) .addressError = true := by decide
/-- V-JEQ-3: the index is checked on the path that does not jump. -/
theorem test_fault_index : faults (st 0x10 [0x55, 9]) .registerIndexError = true := by decide
/-- V-FLT-9: DecodeError comes before any register check. -/
theorem test_fault_decode_first : faults (st 0 [0x99, 8, 8]) .decodeError = true := by decide
/-- No step after a HLT (40_execution_cycle.md R121). -/
theorem test_no_step_halted : step { st 0 [0x01] with run := .halted } = .fault .halted := rfl
/-- S8 of 95_test_vectors.md: a bad line after two literals, the first with a comment. -/
theorem test_load_error : (loadLines 0 [['1','0','0','0','0','0','1','0',' ','#',' ','L'], ['#'],
    ['0','0','0','0','0','0','0','0'], ['x','y','z'], ['0','0','0','0','0','0','0','1']]) =
    ([0x82, 0x00], some .badLiteral) := by decide
/-- 70_reset_and_hazards.md R238 (b): the 257th literal is refused. -/
theorem test_load_too_long : loadLines 256 [['0','0','0','0','0','0','0','1']] = ([], some .tooLong) := by decide

/-! ### Witnesses: every statement's hypotheses can be met, each clause at its boundary -/

/-- Running, with the bytes of `k` at `pc`. -/
abbrev AtPc (k : Mnemonic) (s : State) (b1 b2 : Byte) : Prop :=
  s.run = .running ∧ BytesAtPc s (opcodes.byte k) b1 b2

/-- The clauses of `StepsAsF0` at 0xFE and at 0xFD. -/
abbrev F0Witness (k : Mnemonic) : Prop :=
  (AtPc k (st 0xFE [opcodes.byte k, 8]) 8 0 ∧ (st 0xFE [opcodes.byte k, 8]).pc.toNat > 0xFD) ∧
  (AtPc k (st 0xFD [opcodes.byte k, 8, 9]) 8 9 ∧ Fetchable (st 0xFD [opcodes.byte k, 8, 9]))

/-- The clauses of `StepsAsReg` at 0xFE, and at 0xFD with the indices 8 and 7. -/
abbrev RegWitness (k : Mnemonic) : Prop :=
  (AtPc k (st 0xFE [opcodes.byte k, 7]) 7 0 ∧ (st 0xFE [opcodes.byte k, 7]).pc.toNat > 0xFD) ∧
  (AtPc k (st 0xFD [opcodes.byte k, 8, 9]) 8 9 ∧ Fetchable (st 0xFD [opcodes.byte k, 8, 9]) ∧ (8 : Byte).toNat > 7) ∧
  (AtPc k (st 0xFD [opcodes.byte k, 7, 9]) 7 9 ∧ Fetchable (st 0xFD [opcodes.byte k, 7, 9]) ∧
    (7 : Byte).toNat = (7 : Reg).val)

/-- The clauses of `StepsAsRegReg`: as for one register, with either index at 8. -/
abbrev RegRegWitness (k : Mnemonic) : Prop :=
  RegWitness k ∧
  (AtPc k (st 0xFD [opcodes.byte k, 0, 8]) 0 8 ∧ Fetchable (st 0xFD [opcodes.byte k, 0, 8]) ∧ (8 : Byte).toNat > 7) ∧
  (AtPc k (st 0xFD [opcodes.byte k, 7, 0]) 7 0 ∧ Fetchable (st 0xFD [opcodes.byte k, 7, 0]) ∧
    (7 : Byte).toNat = (7 : Reg).val ∧ (0 : Byte).toNat = (0 : Reg).val)

/-- Legal maps exist: SourceProgramWordsDecode, OpcodeFieldsAndWholeByteMatch, DecodeOfEncodeIsTheInstruction,
IllegalOpcodesAre243, PcAdvanceFollowsTheOpcodeBits and the step clauses of the instructions. -/
theorem witness_legal : opcodes.Legal ∧ operandCount 0xC0 = 3 := by decide
theorem witness_DecodedBytesAreTheEncoding :
    opcodes.Legal ∧ decode opcodes ⟨0x45, 7, 0xFF⟩ = .ok (.push 7) := by decide
theorem witness_MemoryAccess : (256 > 255 ∧ State.reset.memRead 256 = .error .addressError) ∧
    State.reset.memRead 255 = .ok 0 := by decide
theorem witness_StackAccessNeverFaults : after (st 0xFE []) State.err = some .addressError ∧
    (st 0xFE []).err ≠ .addressError := by decide
theorem witness_StackIsLifo : (List.replicate 256 (0xFF : Byte)).length ≤ 256 :=
  le_of_eq List.length_replicate
theorem witness_CanonicalMemory : Memory.wf [(0, 1), (255, 2)] := by decide
theorem witness_PcAdvance : setsPc 0x54 = true ∧ setsPc 0x82 = false ∧ operandCount 0x82 ≤ 2 ∧
    Fetchable (st 0xFD []) := by decide
theorem witness_HltHaltsOnePastItself : F0Witness .hlt ∧
    after (st 0xFD [0x01]) State.run = some .halted := by decide
theorem witness_LdiLoadsTheImmediate : RegWitness .ldi := by decide
theorem witness_PrnEmitsTheRegister : RegWitness .prn := by decide
theorem witness_MulIsProductMod256 : RegRegWitness .mul := by decide
theorem witness_AddIsSumMod256 : RegRegWitness .add := by decide
theorem witness_PushStoresTheRegister : RegWitness .push := by decide
theorem witness_PopLoadsTheTopByte : RegWitness .pop ∧ (6 : Reg) ≠ 7 := by decide
theorem witness_CallPushesTheReturnAddress : RegWitness .call := by decide
theorem witness_RetJumpsToTheTopByte : F0Witness .ret := by decide
theorem witness_CmpSetsTheStickyEqualFlag : RegRegWitness .cmp ∧
    (stx 0xFD [] [(0, 1), (1, 1)]).x 0 = (stx 0xFD [] [(0, 1), (1, 1)]).x 1 ∧
    (st 0xFD []).x 0 ≠ (st 0xFD []).x 7 := by decide
theorem witness_JmpGoesToTheRegister : RegWitness .jmp := by decide
theorem witness_JeqJumpsIfEqualIsSet : RegWitness .jeq := by decide
theorem witness_JneJumpsIfEqualIsClear : RegWitness .jne := by decide

/-- RetReturnsAfterTheCall: the state the CALL itself leaves meets the premises on the state of the RET. -/
theorem witness_RetReturnsAfterTheCall : Fetchable (st 0xFD [0x50, 0]) ∧
    ∃ t, exec (.call 0) (st 0xFD [0x50, 0]) = .next t ∧ t.x 7 = 0xF3 ∧ t.mem.read (t.x 7).toNat = 0xFF :=
  ⟨by decide, _, rfl, by decide, by decide⟩
theorem witness_JumpsAfterCompare : Fetchable (st 0xFD []) ∧
    ((st 0xFD []).x 0 = (st 0xFD []).x 1 ∨ (st 0xFD []).fl.getLsbD 0 = true) ∧
    ¬ ((st 0xFD []).x 0 = (st 0xFD []).x 7 ∨ (st 0xFD []).fl.getLsbD 0 = true) := by decide

/-- RegistersWrittenAreThoseNamed, RegistersReadAreThoseNamed: a register that is neither, and one that is written
and not read. -/
theorem witness_RegistersNamed : (∃ t, exec (.pop 0) State.reset = .next t) ∧
    (1 : Reg) ∉ (Instr.pop 0).reads ∧ (1 : Reg) ∉ (Instr.pop 0).writes ∧
    (0 : Reg) ∉ (Instr.pop 0).reads ∧ (0 : Reg) ∈ (Instr.pop 0).writes :=
  ⟨⟨_, rfl⟩, by decide⟩
/-- EqualFlagIsNeverCleared: a CMP that changes `fl`, and a step with E set. -/
theorem witness_EqualFlagIsNeverCleared : after (st 0 [0xA7, 0, 1]) State.fl ≠ some (st 0 [0xA7, 0, 1]).fl ∧
    after { st 0 [0xA7, 0, 7] with fl := 1 } State.fl = some 1 := by decide
theorem witness_FlagIsReadOnlyByJeqAndJne : (Instr.cmp 0 0).mnemonic ≠ .jeq ∧ (Instr.cmp 0 0).mnemonic ≠ .jne ∧
    (∃ t, exec (.cmp 0 0) State.reset = .next t) ∧ ∃ u, exec (.cmp 0 0) { State.reset with fl := 0xFF } = .next u :=
  ⟨by decide, by decide, ⟨_, rfl⟩, ⟨_, rfl⟩⟩
/-- MemoryIsWrittenOnlyByPush: a step that stores, and one whose opcode is neither PUSH nor CALL. -/
theorem witness_MemoryIsWrittenOnlyByPush : after (st 0 [0x45, 7]) (·.mem.read 0xF3) = some 0xF4 ∧
    (after (st 0 [0x46, 0]) State.pc).isSome ∧ (st 0 [0x46, 0]).mem.read 0 ≠ opcodes.push ∧
    (st 0 [0x46, 0]).mem.read 0 ≠ opcodes.call := by decide
/-- OutputIsExtendedOnlyByPrn: a step that prints. -/
theorem witness_OutputIsExtendedOnlyByPrn :
    after { st 0 [0x47, 7] with out := [1] } State.out = some [1, 0xF4] := by decide
theorem witness_StepRunsTheDecodedInstruction : (st 0xFD [0x82, 7, 9]).run = .running ∧
    Fetchable (st 0xFD [0x82, 7, 9]) ∧ decode opcodes ⟨0x82, 7, 9⟩ = .ok (.ldi 7 9) ∧
    BytesAtPc (st 0xFD [0x82, 7, 9]) 0x82 7 9 := by decide
/-- FaultsInThePhaseOrder, RunStateTransitions: the four cases, with their bytes. -/
theorem witness_FaultsInThePhaseOrder :
    (AtPc .ldi (st 0xFE [0x82, 8]) 8 0 ∧ (st 0xFE [0x82, 8]).pc.toNat > 0xFD) ∧
    (BytesAtPc (st 0xFD [0x00, 8, 8]) 0x00 8 8 ∧ ∀ k ∈ Mnemonic.all, (0x00 : Byte) ≠ opcodes.byte k) ∧
    (AtPc .ldi (st 0xFD [0x82, 8, 8]) 8 8 ∧ ¬ Fetched.WellFormed opcodes ⟨0x82, 8, 8⟩) ∧
    (AtPc .ldi (st 0xFD [0x82, 7, 8]) 7 8 ∧ Fetched.WellFormed opcodes ⟨0x82, 7, 8⟩) := by decide
theorem witness_RunStateTransitions : after (st 0xFD [0x01]) State.run = some .halted ∧
    after (st 0xFD [0x00]) State.run = some .faulted ∧ after (st 0xFE [0x01]) State.run = some .faulted ∧
    after (st 0xFD [0x11]) State.run = some .running := by decide
theorem witness_FaultEntryIsPrecise : after (st 0xFE []) State.run = some .faulted := by decide
theorem witness_StepIsEnabledExactlyWhileRunning : State.reset.run = .running ∧
    State.reset.halt.run = .halted ∧ (State.reset.raise .decodeError).run = .faulted := by decide
/-- V-PUSH-6: the pushed byte is the next opcode; and a CALL onto the first operand byte of its target. -/
theorem witness_StoreIsSeenByTheNextFetch :
    after (stx 0x10 [0x45, 0] [(0, 0xAB), (7, 0x13)]) (fun t => (t.pc.toNat, t.fetch)) =
      some (0x12, .ok ⟨0xAB, 0, 0⟩) ∧
    after (stx 0x20 [0x50, 0] [(0, 0x30), (7, 0x32)]) (fun t => (t.pc.toNat + 1, t.fetch)) =
      some (0x31, .ok ⟨0, 0x22, 0⟩) ∧
    after (stx 0x20 [0x50, 0] [(0, 0x30), (7, 0x33)]) (fun t => (t.pc.toNat + 2, t.fetch)) =
      some (0x32, .ok ⟨0, 0, 0x22⟩) := by decide
theorem witness_StepKeepsTheInvariant : Inv (st 0xFD [0x82, 0, 0]) ∧
    after (st 0xFD [0x82, 0, 0]) State.pc = some 0x100 :=
  ⟨⟨by decide, by decide, by decide, by decide⟩, by decide⟩
theorem witness_HostReset : (State.raise (st 0xFD [0x82, 0, 1]) .decodeError).mem.wf := by decide
/-- EndedRunsStayEnded: one run that halts, one that faults. -/
theorem witness_EndedRunsStayEnded : Ended (runFor 1 (st 0 [0x01])) ∧ Ended (runFor 1 (st 0 [])) ∧
    Inv (st 0 [0x01]) :=
  ⟨by decide, by decide, by decide, by decide, by decide, by decide⟩
theorem witness_LaunchHoldsTheImage : (List.replicate 256 (0x01 : Byte)).length ≤ 256 :=
  le_of_eq List.length_replicate
theorem witness_LoadError : [['0','0','0','0','0','0','0','1']].map (fun l => literal? (lineToken l)) = [0x01].map some ∧
    literal? (lineToken ['x','y','z']) = none ∧ lineToken ['x','y','z'] ≠ [] ∧ Session.new.phase = .inReset := by decide
/-- 70_reset_and_hazards.md R240: a load in reset reaches memory; once a run is launched there is none, not even
when it has ended. -/
theorem test_load_in_reset : (Session.new.load [0x01]).map (·.core.mem) = some [(0, 0x01)] := by decide
theorem test_load_during_run :
    (Session.new.serve [.load [0x01], .start, .run 5, .load [0x47]]).core.mem = [(0, 0x01)] := by decide
/-- HostInteractionsAreAllowedAsTabled, HostCannotDisturbARun: both phases, an image of 256 bytes, and each way a
run can stand when it reports. -/
theorem witness_Session : Session.new.phase = .inReset ∧ Session.new.start.phase = .launched ∧
    (runFor 0 State.reset).run = .running ∧ (runFor 1 (st 0 [0x01])).run = .halted ∧
    (runFor 1 State.reset).run = .faulted ∧
    ∀ r ∈ [Request.load [0x01], .run 3, .inspect .pc], r ≠ .reset ∧ r ≠ .start := by decide
theorem witness_PlacedWordIsExecutedNext : decodeTableWord 16 0x0745 = some (.push 7) := by decide

end Sys2Proof.Tests
end

section
/-! PROOF. Writes to one register: what they keep (10_state.md R30). -/

namespace Sys2Proof

open Machine Claims

theorem regsKept_setX (s : State) (i : Reg) (v : Byte) : RegsKept s (s.setX i v) [i] :=
  fun r hr => s.setX_x_of_ne i r v (List.ne_of_not_mem_cons hr)

theorem controlKept_setX (s : State) (i : Reg) (v : Byte) : ControlKept s (s.setX i v) :=
  ⟨s.setX_fl i v, ⟨s.setX_run i v, s.setX_err i v⟩, s.setX_out i v⟩

/-- Settles O8, from the read-after-write laws of `State.setX`. -/
theorem registerReadsWhatWasWritten : Obligations.RegisterReadsWhatWasWritten :=
  fun s i v => ⟨s.setX_x_self i v, regsKept_setX s i v, s.setX_mem i v, s.setX_pc i v, controlKept_setX s i v⟩

end Sys2Proof
end

section
/-! PROOF. What a decoded instruction says of the bytes it came from (30_encoding.md R92, R94). -/

namespace Sys2Proof

/-- An index check in front of a result: if the whole succeeds, the index passed and the rest succeeded. -/
theorem regidx_bind_eq_ok {α : Type} {v : Byte} {f : Reg → Except Reject α} {x : α}
    (h : (regidx v >>= f) = .ok x) : ∃ r, regidx v = .ok r ∧ f r = .ok x := by
  cases hv : regidx v with
  | error e => rw [hv] at h; cases h
  | ok r => rw [hv] at h; exact ⟨r, rfl, h⟩

/-- The operand phase keeps the mnemonic the opcode byte selected. -/
theorem operandsOf_mnemonic {opa opb : Byte} {k : Mnemonic} {i : Instr}
    (h : operandsOf opa opb k = .ok i) : i.mnemonic = k := by
  cases k with
  | hlt | ret => cases h; rfl
  | ldi | prn | push | pop | call | jmp | jeq | jne =>
    obtain ⟨a, -, ha⟩ := regidx_bind_eq_ok h
    cases ha
    rfl
  | mul | add | cmp =>
    obtain ⟨a, -, ha⟩ := regidx_bind_eq_ok h
    obtain ⟨b, -, hb⟩ := regidx_bind_eq_ok ha
    cases hb
    rfl

/-- A successful decode is a successful operand phase for the mnemonic of its result, whose byte was fetched. -/
theorem decode_eq_ok {m : OpcodeMap} {f : Fetched} {i : Instr} (h : decode m f = .ok i) :
    f.ir = m.byte i.mnemonic ∧ operandsOf f.opa f.opb i.mnemonic = .ok i := by
  unfold decode at h
  split at h
  · cases h
  · rename_i k hk
    rw [operandsOf_mnemonic h]
    exact ⟨(lookup_eq_some hk).symm, h⟩

/-- What decodes to a PRN has PRN's opcode byte and names its register in operand_a. -/
theorem decode_eq_prn {m : OpcodeMap} {f : Fetched} {a : Reg} (h : decode m f = .ok (.prn a)) :
    f.ir = m.prn ∧ f.opa.toNat = a.val := by
  obtain ⟨hir, hops⟩ := decode_eq_ok h
  obtain ⟨r, hr, hprn⟩ := regidx_bind_eq_ok hops
  cases hprn
  refine ⟨hir, ?_⟩
  rw [(regidx_eq_ok hr).1, regByte_toNat]

end Sys2Proof
end

section
/-! PROOF. The three ways a step of a Running machine goes, as equations: the converse of `stepWith_cases`
(40_execution_cycle.md R122, 60_exceptions.md R205). -/

namespace Sys2Proof.Machine

variable {m : OpcodeMap} {s : State}

theorem stepWith_of_pc_gt (hrun : s.run = .running) (hpc : s.pc.toNat > 0xFD) :
    stepWith m s = .next (s.raise .addressError) := by
  simp only [stepWith, hrun, State.fetch_of_gt s hpc]

theorem stepWith_of_decode_error {r : Reject} (hrun : s.run = .running) (hpc : s.pc.toNat ≤ 0xFD)
    (hdec : decode m s.bytesAtPc = .error r) : stepWith m s = .next (s.raise (errOf r)) := by
  have hfetch : s.fetch = .ok s.bytesAtPc := State.fetch_of_le s hpc
  simp only [stepWith, hrun, hfetch, hdec]

theorem stepWith_of_decode_ok {i : Instr} (hrun : s.run = .running) (hpc : s.pc.toNat ≤ 0xFD)
    (hdec : decode m s.bytesAtPc = .ok i) : stepWith m s = exec i s := by
  have hfetch : s.fetch = .ok s.bytesAtPc := State.fetch_of_le s hpc
  simp only [stepWith, hrun, hfetch, hdec]

end Sys2Proof.Machine
end

section
/-! PROOF. The output (10_state.md R52, 40_execution_cycle.md R130). A step is compared with the step of the same
state holding another `out`: the two emit the same bytes and agree in everything else, so the CORE never reads `out`
and only ever appends to it. -/

namespace Sys2Proof.Machine

/-- The state with another output so far. -/
def State.withOut (s : State) (o : List Byte) : State := { s with out := o }

/-- The bytes an instruction hands to the output: PRN's register, and nothing for any other. -/
def emitted (s : State) : Instr → List Byte
  | .prn a => [s.x a]
  | _ => []

theorem emitted_eq_nil_or_prn (s : State) (i : Instr) :
    emitted s i = [] ∨ ∃ a, i = .prn a ∧ emitted s i = [s.x a] := by
  cases i with
  | prn a => exact .inr ⟨a, rfl, rfl⟩
  | _ => exact .inl rfl

section
variable (s : State) (o : List Byte)

@[simp] theorem State.withOut_pc : (s.withOut o).pc = s.pc := rfl
@[simp] theorem State.withOut_mem : (s.withOut o).mem = s.mem := rfl
@[simp] theorem State.withOut_out : (s.withOut o).out = o := rfl
@[simp] theorem State.withOut_x (r : Reg) : (s.withOut o).x r = s.x r := rfl
@[simp] theorem State.withOut_equal : (s.withOut o).equal = s.equal := rfl
@[simp] theorem State.withOut_self : s.withOut s.out = s := rfl

@[simp] theorem State.withOut_setX (i : Reg) (v : Byte) : (s.withOut o).setX i v = (s.setX i v).withOut o := rfl
@[simp] theorem State.withOut_setPc (p : Pc) : (s.withOut o).setPc p = (s.setPc p).withOut o := rfl
@[simp] theorem State.withOut_setMem (m : Memory) : (s.withOut o).setMem m = (s.setMem m).withOut o := rfl
@[simp] theorem State.withOut_halt : (s.withOut o).halt = s.halt.withOut o := rfl
@[simp] theorem State.withOut_raise (e : ErrKind) : (s.withOut o).raise e = (s.raise e).withOut o := rfl

@[simp] theorem State.withOut_emit (v : Byte) : (s.withOut o).emit v = (s.emit v).withOut (o ++ [v]) := rfl

@[simp] theorem State.withOut_recordEquality (p q : Byte) :
    (s.withOut o).recordEquality p q = (s.recordEquality p q).withOut o := by
  unfold State.recordEquality
  split <;> rfl

end

/-- Whatever `out` held before, an instruction appends the same bytes and has the same other effects. -/
theorem exec_withOut {i : Instr} {s t : State} (h : exec i s = .next t) (o : List Byte) :
    exec i (s.withOut o) = .next (t.withOut (o ++ emitted s i)) := by
  cases i with
  | prn a =>
    rw [exec_prn] at h ⊢
    cases h
    simp [emitted]
  | jeq | jne =>
    simp only [exec_jeq, exec_jne] at h ⊢
    cases h
    simp only [emitted, List.append_nil]
    rfl
  | hlt | ldi | mul | add | push | pop | call | ret | cmp | jmp =>
    simp only [exec_hlt, exec_ldi, exec_mul, exec_add, exec_push, exec_pop, exec_call, exec_ret, exec_cmp,
      exec_jmp] at h ⊢
    cases h
    simp [emitted]

/-- A step appends nothing, or the register its PRN names; and it does so whatever `out` held before. -/
theorem stepWith_withOut {m : OpcodeMap} {s t : State} (h : stepWith m s = .next t) :
    ∃ new, (new = [] ∨ (s.mem.read s.pc.toNat = m.prn ∧
        ∃ a : Reg, (s.mem.read (s.pc.toNat + 1)).toNat = a.val ∧ new = [s.x a])) ∧
      ∀ o, stepWith m (s.withOut o) = .next (t.withOut (o ++ new)) := by
  obtain ⟨hrun, ⟨hpc, rfl⟩ | ⟨hpc, r, hdec, rfl⟩ | ⟨hpc, i, hdec, hexec⟩⟩ := stepWith_cases h
  · refine ⟨[], .inl rfl, fun o => ?_⟩
    rw [stepWith_of_pc_gt (s := s.withOut o) hrun hpc, State.withOut_raise, List.append_nil]
  · refine ⟨[], .inl rfl, fun o => ?_⟩
    rw [stepWith_of_decode_error (s := s.withOut o) hrun hpc hdec, State.withOut_raise, List.append_nil]
  · refine ⟨emitted s i, ?_, fun o => ?_⟩
    · refine (emitted_eq_nil_or_prn s i).imp_right ?_
      rintro ⟨a, rfl, hnew⟩
      obtain ⟨hir, hopa⟩ := decode_eq_prn hdec
      exact ⟨hir, a, hopa, hnew⟩
    · rw [stepWith_of_decode_ok (s := s.withOut o) hrun hpc hdec, exec_withOut hexec]

/-- A step's own `out`: the comparison state may be the state itself. -/
theorem out_eq_append_of_withOut {m : OpcodeMap} {s t : State} {new : List Byte} (h : stepWith m s = .next t)
    (hw : ∀ o, stepWith m (s.withOut o) = .next (t.withOut (o ++ new))) : t.out = s.out ++ new := by
  have hself := hw s.out
  rw [State.withOut_self, h] at hself
  injection hself with ht
  rw [ht, State.withOut_out]

end Sys2Proof.Machine

namespace Sys2Proof

open Machine

/-- Settles O39: a step commutes with replacing `out`, up to the bytes PRN appends. -/
theorem outputIsExtendedOnlyByPrn : Obligations.OutputIsExtendedOnlyByPrn := by
  refine ⟨fun _ => rfl, fun m s t h => ?_⟩
  obtain ⟨new, hnew, hw⟩ := stepWith_withOut h
  have hout : t.out = s.out ++ new := out_eq_append_of_withOut h hw
  refine ⟨?_, new, hout, hw⟩
  obtain rfl | ⟨hir, a, hopa, rfl⟩ := hnew
  · exact .inl (by rw [hout, List.append_nil])
  · exact .inr ⟨hir, a, hopa, hout⟩

end Sys2Proof
end

section
/-! PROOF. The decoder and the encoder are inverse to each other (30_encoding.md R90 to R96, R101). One equivalence
carries it, `decode_eq_ok_iff_encode`: three bytes decode to an instruction exactly if its encoding is the first of
them, as many as the instruction has. -/

namespace Sys2Proof

/-- Bits 7:6 of a byte as a number (30_encoding.md R91). -/
theorem operandCount_eq (ir : Byte) : operandCount ir = ir.toNat / 64 := by
  simp [operandCount, BitVec.toNat_ushiftRight, Nat.shiftRight_eq_div_pow]

/-- Bit 4 of a byte as a number (30_encoding.md R91). -/
theorem setsPc_iff (ir : Byte) : setsPc ir = true ↔ ir.toNat / 16 % 2 = 1 := by
  simp [setsPc, BitVec.getLsbD, Nat.testBit_eq_decide_div_mod_eq]

/-- An index check passes with `r` exactly on the byte of `r`. -/
theorem regidx_eq_ok_iff {v : Byte} {r : Reg} : regidx v = .ok r ↔ regByte r = v :=
  ⟨fun h => (regidx_eq_ok h).1.symm, fun h => h ▸ regidx_regByte r⟩

/-- An index check in front of a result succeeds exactly on the byte of a register with which the rest succeeds. -/
theorem regidx_bind_eq_ok_iff {α : Type} {v : Byte} {f : Reg → Except Reject α} {x : α} :
    (regidx v >>= f) = .ok x ↔ ∃ r, regByte r = v ∧ f r = .ok x := by
  constructor
  · intro h
    obtain ⟨r, hr, hf⟩ := regidx_bind_eq_ok h
    exact ⟨r, regidx_eq_ok_iff.mp hr, hf⟩
  · rintro ⟨r, rfl, hf⟩
    rw [regidx_regByte]
    exact hf

/-- No instruction has more than two operand bytes (30_encoding.md R90). -/
theorem Mnemonic.operands_le_two (k : Mnemonic) : k.operands ≤ 2 := by cases k <;> decide

/-- An encoding is one byte longer than its operands (30_encoding.md R93). -/
@[simp] theorem encode_length (m : OpcodeMap) (i : Instr) : (encode m i).length = i.mnemonic.operands + 1 := by
  cases i <;> rfl

/-- An encoding begins with the opcode byte. -/
theorem encode_head? (m : OpcodeMap) (i : Instr) : (encode m i).head? = some (m.byte i.mnemonic) := by
  cases i <;> rfl

/-- The operand phase gives an instruction exactly if the operand bytes it has are those of its encoding. -/
theorem operandsOf_eq_ok_iff (m : OpcodeMap) {opa opb : Byte} {i : Instr} :
    operandsOf opa opb i.mnemonic = .ok i ↔
      encode m i = [m.byte i.mnemonic, opa, opb].take (i.mnemonic.operands + 1) := by
  cases i with
  | hlt | ret => exact iff_of_true rfl rfl
  | ldi | prn | mul | add | push | pop | call | cmp | jmp | jeq | jne =>
    -- both sides are equations of operand bytes: a register's with its index check, an immediate's directly
    simp [operandsOf, regidx_bind_eq_ok_iff, pure, Except.pure, encode, Instr.mnemonic, Mnemonic.operands,
      OpcodeMap.byte, eq_comm (a := opb)]

/-- Matching the whole opcode byte: the mnemonic found is the one with this byte (30_encoding.md R92). -/
theorem lookup_eq_some_iff {m : OpcodeMap} (h : m.Distinct) {ir : Byte} {k : Mnemonic} :
    lookup m ir = some k ↔ ir = m.byte k :=
  ⟨fun hk => (lookup_eq_some hk).symm, fun hk => hk ▸ lookup_byte h k⟩

/-- A byte that is no opcode is refused under that name, whatever follows it. -/
theorem decode_of_ne_byte {m : OpcodeMap} {f : Fetched} (h : ∀ k, f.ir ≠ m.byte k) :
    decode m f = .error (.unknownOpcode f.ir) := by
  have hnone : lookup m f.ir = none := lookup_eq_none.mpr fun k => (h k).symm
  simp only [decode, hnone]

/-- Behind the opcode byte of a mnemonic, decoding is that mnemonic's operand phase. -/
theorem decode_of_ir {m : OpcodeMap} (h : m.Distinct) {f : Fetched} {k : Mnemonic} (hir : f.ir = m.byte k) :
    decode m f = operandsOf f.opa f.opb k := by
  simp only [decode, (lookup_eq_some_iff h).mpr hir]

/-- Three bytes decode to an instruction exactly if they begin with its encoding (30_encoding.md R90, R93). -/
theorem decode_eq_ok_iff_encode {m : OpcodeMap} (h : m.Distinct) {f : Fetched} {i : Instr} :
    decode m f = .ok i ↔ encode m i = [f.ir, f.opa, f.opb].take (i.mnemonic.operands + 1) := by
  constructor
  · intro hdec
    obtain ⟨hir, hops⟩ := decode_eq_ok hdec
    rw [hir]
    exact (operandsOf_eq_ok_iff m).mp hops
  · intro henc
    have hir : f.ir = m.byte i.mnemonic := by
      have hhead := encode_head? m i
      rw [henc] at hhead
      exact Option.some.inj hhead
    rw [decode_of_ir h hir, operandsOf_eq_ok_iff m, ← hir]
    exact henc

/-- The fetched bytes of a list with no byte missing are its first three. -/
theorem Fetched.ofBytes_eq_take {bs : List Byte} (h : 3 ≤ bs.length) :
    [(ofBytes bs).ir, (ofBytes bs).opa, (ofBytes bs).opb] = bs.take 3 := by
  match bs, h with
  | _ :: _ :: _ :: _, _ => rfl

/-- Settles O4: an encoding with two bytes behind it fills a fetch, whose first bytes are the encoding again. -/
theorem decodeOfEncodeIsTheInstruction : Obligations.DecodeOfEncodeIsTheInstruction := by
  intro m i u v ⟨_, hdistinct, _⟩
  have hlen : 3 ≤ (encode m i ++ [u, v]).length := by simp
  have hshort : i.mnemonic.operands + 1 ≤ 3 := Nat.succ_le_succ i.mnemonic.operands_le_two
  rw [decode_eq_ok_iff_encode hdistinct, Fetched.ofBytes_eq_take hlen, List.take_take, min_eq_left hshort,
    ← encode_length m i, List.take_left]

/-- Settles O3, from the exact match of the opcode byte and the bits a legal map gives each mnemonic. -/
theorem opcodeFieldsAndWholeByteMatch : Obligations.OpcodeFieldsAndWholeByteMatch := by
  refine ⟨fun ir => ⟨operandCount_eq ir, setsPc_iff ir⟩, ?_⟩
  intro m ⟨_, hdistinct, hbits⟩
  refine ⟨fun _ _ => lookup_eq_some_iff hdistinct, fun _ => decode_of_ne_byte, fun i => ?_⟩
  obtain ⟨hcount, hsets⟩ := OpcodeMap.bits_of_legal hbits i.mnemonic
  exact ⟨hcount, hsets, by rw [encode_length, hcount]⟩

/-- Settles O5: the decoded mnemonic's operand count is the one in the opcode byte. -/
theorem decodedBytesAreTheEncoding : Obligations.DecodedBytesAreTheEncoding := by
  intro m f i ⟨_, hdistinct, hbits⟩ hdec
  have hcount : operandCount f.ir = i.mnemonic.operands := by
    rw [(decode_eq_ok hdec).1]
    exact (OpcodeMap.bits_of_legal hbits i.mnemonic).1
  rw [hcount]
  exact (decode_eq_ok_iff_encode hdistinct).mp hdec

/-- Settles O1: each of the source's words begins with the encoding of its instruction, by the source's bytes. -/
theorem sourceProgramWordsDecode : Obligations.SourceProgramWordsDecode := by
  refine ⟨?_, by decide⟩
  intro m ⟨⟨hhlt, hldi, hprn, hmul⟩, hdistinct, _⟩ u v
  simp only [decode_eq_ok_iff_encode hdistinct, encode, hhlt, hldi, hprn, hmul]
  exact ⟨rfl, rfl, rfl, rfl, rfl⟩

end Sys2Proof
end

section
/-! PROOF. The end of a step (40_execution_cycle.md R122, R125). Every instruction is a handler that succeeds, followed
by the advance its own opcode's bits ask for; no handler without sets-PC touches `pc`. -/

namespace Sys2Proof.Machine

/-- This machine's opcode bytes have the bits of their rows (30_encoding.md R98). -/
theorem opcodes_bitsFit : opcodes.BitsFit := by decide

/-- From a fetchable `pc` the advance of any opcode byte stays inside the 9 bits (40_execution_cycle.md R125). -/
theorem State.nextPc_toNat_of_fetchable {s : State} (hs : Fetchable s) (ir : Byte) :
    (s.nextPc ir).toNat = s.pc.toNat + operandCount ir + 1 := by
  have hpc : s.pc.toNat ≤ 0xFD := hs
  have hcount : operandCount ir < 4 := by rw [operandCount_eq]; omega
  exact s.nextPc_toNat (by omega)

/-- An instruction is its handler and the end of the step: the handler never raises (60_exceptions.md R204), and it
leaves `pc` to the advance unless the instruction writes `pc` itself. -/
theorem exec_eq_retire (i : Instr) (s : State) :
    ∃ t, exec i s = s.retire (opcodes.byte i.mnemonic) (.ok t) ∧
      (i.mnemonic.writesPc = false → t.pc = s.pc) := by
  cases i with
  | hlt | ldi | prn | mul | add => exact ⟨_, rfl, fun _ => rfl⟩
  | cmp => exact ⟨_, rfl, fun _ => s.recordEquality_pc _ _⟩
  | push => exact ⟨_, congrArg (s.retire _) (s.push_eq _), fun _ => rfl⟩
  | pop a =>
    refine ⟨(s.setX 7 (s.x 7 + 1)).setX a (s.mem.read (s.x 7).toNat), ?_, fun _ => rfl⟩
    simp only [exec, execPop, s.pop_eq]
    rfl
  | call a =>
    obtain ⟨t, ht⟩ : ∃ t, s.push s.returnAddress = .ok t := ⟨_, s.push_eq _⟩
    refine ⟨t.setPc (zext9 (t.x a)), ?_, nofun⟩
    simp only [exec, execCall, ht]
    rfl
  | ret => exact ⟨_, exec_ret s, nofun⟩
  | jmp | jeq | jne => exact ⟨_, rfl, nofun⟩

/-- An instruction that does not write `pc` itself leaves it behind its operands. -/
theorem exec_advances_pc {i : Instr} {s : State} (hs : Fetchable s) :
    ∃ t, exec i s = .next t ∧
      (i.mnemonic.writesPc = false → t.pc.toNat = s.pc.toNat + i.mnemonic.operands + 1) := by
  obtain ⟨t, hexec, hkept⟩ := exec_eq_retire i s
  obtain ⟨hcount, hsets⟩ := OpcodeMap.bits_of_legal opcodes_bitsFit i.mnemonic
  refine ⟨t.advance (opcodes.byte i.mnemonic), hexec, fun hw => ?_⟩
  have hpc : t.pc = s.pc := hkept hw
  have ht : Fetchable t := by rw [Fetchable, hpc]; exact hs
  rw [State.advance_of_not_setsPc t (hsets.trans hw), State.setPc_pc, State.nextPc_toNat_of_fetchable ht, hpc, hcount]

end Sys2Proof.Machine

namespace Sys2Proof

open Machine Claims

/-- Settles O15: the end of a step by the opcode's bits, and every instruction as a handler before it. -/
theorem pcAdvanceFollowsTheOpcodeBits : Obligations.PcAdvanceFollowsTheOpcodeBits := by
  refine ⟨fun ir s t hsets => ?_, fun ir s t hsets ht => ?_, fun m i s ⟨_, _, hbits⟩ hs => ?_⟩
  · rw [State.retire_ok, State.advance_of_setsPc t hsets]
  · have hnext := State.nextPc_toNat_of_fetchable ht ir
    have hpc : t.pc.toNat ≤ 0xFD := ht
    refine ⟨t.setPc (t.nextPc ir), ?_, hnext, fun hcount => ?_, fun _ _ => rfl, fun _ _ => rfl,
      rfl, ⟨rfl, rfl⟩, rfl⟩
    · rw [State.retire_ok, State.advance_of_not_setsPc t hsets]
    · rw [State.setPc_pc, hnext]
      omega
  · obtain ⟨hcount, hsets⟩ := OpcodeMap.bits_of_legal hbits i.mnemonic
    rw [hcount, hsets]
    exact exec_advances_pc hs

end Sys2Proof
end

section
/-! PROOF. The stack primitives (43_stack.md R160, R161, R167). Both succeed in every state, so each is named by the
state it leaves: `State.pushed` and `State.popped`, with `State.top` the byte a pop answers. -/

namespace Sys2Proof.Machine

/-- The state a push of `v` leaves (43_stack.md R160). -/
def State.pushed (s : State) (v : Byte) : State :=
  (s.setX 7 (s.x 7 - 1)).setMem (s.mem.write (s.x 7 - 1).toNat v)

/-- The byte a pop answers (43_stack.md R161). -/
def State.top (s : State) : Byte := s.mem.read (s.x 7).toNat

/-- The state a pop leaves (43_stack.md R161). -/
def State.popped (s : State) : State := s.setX 7 (s.x 7 + 1)

theorem State.push_eq_pushed (s : State) (v : Byte) : s.push v = .ok (s.pushed v) := s.push_eq v

theorem State.pop_eq_popped (s : State) : s.pop = .ok (s.top, s.popped) := s.pop_eq

section
variable (s : State) (v : Byte)

@[simp] theorem State.pushed_x_seven : (s.pushed v).x 7 = s.x 7 - 1 := s.setX_x_self 7 (s.x 7 - 1)

@[simp] theorem State.pushed_mem : (s.pushed v).mem = s.mem.write (s.x 7 - 1).toNat v := rfl

@[simp] theorem State.popped_x_seven : s.popped.x 7 = s.x 7 + 1 := s.setX_x_self 7 (s.x 7 + 1)

/-- SP after a push, as a number (43_stack.md R160: modulo 256). -/
theorem State.pushed_sp_toNat : ((s.pushed v).x 7).toNat = ((s.x 7).toNat + 255) % 256 := by
  rw [State.pushed_x_seven]
  bv_omega

/-- SP after a pop, as a number (43_stack.md R161: modulo 256). -/
theorem State.popped_sp_toNat : (s.popped.x 7).toNat = ((s.x 7).toNat + 1) % 256 := by
  rw [State.popped_x_seven, BitVec.toNat_add]
  rfl

/-- A pop undoes a push in everything but memory, whatever memory holds by then. -/
theorem State.popped_pushed_setMem (m : Memory) : ((s.pushed v).setMem m).popped = s.setMem m := by
  refine State.ext_x (fun r => ?_) rfl rfl rfl rfl rfl rfl
  simp only [State.popped, State.pushed, State.setX_x, State.setMem_x]
  by_cases hr : r = 7
  · simp [hr]
  · simp [hr]

end

end Sys2Proof.Machine

namespace Sys2Proof

open Machine Claims

/-- Settles O10: the state a push leaves, read register by register and cell by cell. -/
theorem pushPrimitiveIsPreDecrement : Obligations.PushPrimitiveIsPreDecrement := by
  intro s v
  refine ⟨s.pushed v, s.push_eq_pushed v, s.pushed_sp_toNat v, ?_, regsKept_setX s 7 (s.x 7 - 1), fun a ha => ?_, rfl,
    controlKept_setX s 7 (s.x 7 - 1)⟩
  · rw [State.pushed_x_seven, State.pushed_mem, Memory.read_write_self]
  · exact Memory.read_write_of_ne s.mem v (List.ne_of_not_mem_cons ha)

/-- Settles O11: a pop answers the top byte and is otherwise a write of SP. -/
theorem popPrimitiveIsPostIncrement : Obligations.PopPrimitiveIsPostIncrement := fun s =>
  ⟨s.top, s.popped, s.pop_eq_popped, rfl, s.popped_sp_toNat, regsKept_setX s 7 _, fun _ _ => rfl, rfl,
    controlKept_setX s 7 _⟩

end Sys2Proof
end

section
/-! PROOF. Only a fetch raises AddressError (20_memory.md R61, 43_stack.md R167, 60_exceptions.md R204): no rejection of
the decoder is one, and no instruction touches the fault latch. -/

namespace Sys2Proof.Machine

theorem errOf_ne_addressError (r : Reject) : errOf r ≠ .addressError := by
  cases r <;> exact nofun

/-- No instruction writes the fault latch (60_exceptions.md R204). -/
theorem exec_keeps_err {i : Instr} {s t : State} (h : exec i s = .next t) : t.err = s.err := by
  cases i with
  | cmp =>
    rw [exec_cmp] at h
    cases h
    exact s.recordEquality_err _ _
  | hlt | ldi | prn | mul | add | push | pop | call | ret | jmp | jeq | jne =>
    simp only [exec_hlt, exec_ldi, exec_prn, exec_mul, exec_add, exec_push, exec_pop, exec_call, exec_ret, exec_jmp,
      exec_jeq, exec_jne] at h
    cases h
    rfl

/-- A step that newly latches AddressError could not fetch. -/
theorem pc_gt_of_stepWith_addressError {m : OpcodeMap} {s t : State} (h : stepWith m s = .next t)
    (ht : t.err = .addressError) (hs : s.err ≠ .addressError) : s.pc.toNat > 0xFD := by
  obtain ⟨-, ⟨hpc, -⟩ | ⟨-, r, -, rfl⟩ | ⟨-, i, -, hexec⟩⟩ := stepWith_cases h
  · exact hpc
  · exact absurd ht (errOf_ne_addressError r)
  · exact absurd (exec_keeps_err hexec ▸ ht) hs

end Sys2Proof.Machine

namespace Sys2Proof

open Machine

/-- Settles O12: both primitives succeed, and among the outcomes of a step only a failed fetch is an AddressError. -/
theorem stackAccessNeverFaults : Obligations.StackAccessNeverFaults :=
  ⟨fun s v => ⟨s.pushed v, s.push_eq_pushed v, s.pushed_sp_toNat v⟩,
    fun s => ⟨s.top, s.popped, s.pop_eq_popped, s.popped_sp_toNat⟩,
    fun _ _ _ => pc_gt_of_stepWith_addressError⟩

end Sys2Proof
end

section
/-! PROOF. The stack is last in, first out (43_stack.md R166 (b)). By induction on the bytes pushed: the last of the
pops meets the first push, whose cell the later pushes, at most 255, have not come round to. -/

namespace Sys2Proof

open Machine Claims

/-- The state the pushes of a list leave. -/
def pushedAll (vs : List Byte) (s : State) : State := vs.foldl State.pushed s

@[simp] theorem pushedAll_nil (s : State) : pushedAll [] s = s := rfl

@[simp] theorem pushedAll_cons (v : Byte) (vs : List Byte) (s : State) :
    pushedAll (v :: vs) s = pushedAll vs (s.pushed v) := rfl

/-- Pushes always succeed. -/
theorem pushAll_eq (vs : List Byte) (s : State) : pushAll vs s = .ok (pushedAll vs s) := by
  induction vs generalizing s with
  | nil => rfl
  | cons v vs ih =>
    rw [pushAll, State.push_eq_pushed]
    exact ih (s.pushed v)

/-- The bytes `n` pops answer, in the order they come. -/
def tops (n : Nat) (s : State) : List Byte := (List.range n).map fun k => (State.popped^[k] s).top

theorem tops_succ (n : Nat) (s : State) : tops (n + 1) s = s.top :: tops n s.popped := by
  simp [tops, List.range_succ_eq_map, Function.comp_def]

theorem tops_succ_last (n : Nat) (s : State) : tops (n + 1) s = tops n s ++ [(State.popped^[n] s).top] := by
  simp [tops, List.range_succ]

/-- Pops always succeed. -/
theorem popAll_eq (n : Nat) (s : State) : popAll n s = .ok (tops n s, State.popped^[n] s) := by
  induction n generalizing s with
  | zero => rfl
  | succ n ih =>
    rw [popAll, State.pop_eq_popped, tops_succ, Function.iterate_succ_apply]
    exact congrArg (· >>= fun p => pure (s.top :: p.1, p.2)) (ih s.popped)

/-- Pops counted from the last: after `n` of them, one more. -/
theorem popAll_succ_of_eq_ok {n : Nat} {s u : State} {vs : List Byte} (h : popAll n s = .ok (vs, u)) :
    popAll (n + 1) s = .ok (vs ++ [u.top], u.popped) := by
  rw [popAll_eq] at h
  cases h
  rw [popAll_eq, tops_succ_last, Function.iterate_succ_apply']

/-- Pushes leave the cells from SP upwards but for as many, going round, as there are bytes pushed. -/
theorem pushedAll_read_above {vs : List Byte} {k : Nat} (hk : k + vs.length < 256) (s : State) :
    (pushedAll vs s).mem.read (s.x 7 + BitVec.ofNat 8 k).toNat = s.mem.read (s.x 7 + BitVec.ofNat 8 k).toNat := by
  induction vs generalizing k s with
  | nil => rfl
  | cons v vs ih =>
    rw [List.length_cons] at hk
    have hsame : s.x 7 + BitVec.ofNat 8 k = (s.pushed v).x 7 + BitVec.ofNat 8 (k + 1) := by
      rw [State.pushed_x_seven]
      bv_omega
    have hother : (s.x 7 + BitVec.ofNat 8 k).toNat ≠ (s.x 7 - 1).toNat := by bv_omega
    calc (pushedAll vs (s.pushed v)).mem.read (s.x 7 + BitVec.ofNat 8 k).toNat
      _ = (s.pushed v).mem.read (s.x 7 + BitVec.ofNat 8 k).toNat := by
          rw [hsame]
          exact ih (by omega) (s.pushed v)
      _ = s.mem.read (s.x 7 + BitVec.ofNat 8 k).toNat := Memory.read_write_of_ne s.mem v hother

/-- Up to 255 further pushes leave the byte on top. -/
theorem pushedAll_read_top {vs : List Byte} (h : vs.length < 256) (s : State) :
    (pushedAll vs s).mem.read (s.x 7).toNat = s.top := by
  simpa [State.top] using pushedAll_read_above (k := 0) (by omega) s

/-- As many pops as pushes answer the bytes last first and restore all but memory. -/
theorem popAll_pushedAll {vs : List Byte} (h : vs.length ≤ 256) (s : State) :
    popAll vs.length (pushedAll vs s) = .ok (vs.reverse, s.setMem (pushedAll vs s).mem) := by
  induction vs generalizing s with
  | nil => rfl
  | cons v vs ih =>
    rw [List.length_cons] at h
    have hv : (pushedAll vs (s.pushed v)).mem.read ((s.pushed v).x 7).toNat = v := by
      rw [pushedAll_read_top h]
      simp [State.top]
    have htop : ((s.pushed v).setMem (pushedAll vs (s.pushed v)).mem).top = v := hv
    rw [pushedAll_cons, List.length_cons, popAll_succ_of_eq_ok (ih (by omega) (s.pushed v)), htop,
      State.popped_pushed_setMem, List.reverse_cons]

/-- Settles O13, from `popAll_pushedAll`: the state after the pops is the first one with the pushes' memory. -/
theorem stackIsLifo : Obligations.StackIsLifo := fun vs s h =>
  ⟨pushedAll vs s, s.setMem (pushedAll vs s).mem, pushAll_eq vs s, popAll_pushedAll h s, fun _ _ => rfl, rfl,
    ⟨rfl, ⟨rfl, rfl⟩, rfl⟩, rfl⟩

end Sys2Proof
end

section
/-! PROOF. The next state of every instruction, and what each field of it is. `exec` never refuses and never raises
(60_exceptions.md R204), so its answer is a function, `executed`; the rules that speak of all instructions are read off
its fields. -/

namespace Sys2Proof.Machine

/-- The state an instruction leaves (`exec_eq_executed`). -/
def executed : Instr → State → State
  | .hlt, s => s.halt.setPc (s.pc + 1)
  | .ldi a imm, s => (s.setX a imm).setPc (s.pc + 3)
  | .prn a, s => (s.emit (s.x a)).setPc (s.pc + 2)
  | .mul a b, s => (s.setX a (s.x a * s.x b)).setPc (s.pc + 3)
  | .add a b, s => (s.setX a (s.x a + s.x b)).setPc (s.pc + 3)
  | .push a, s => (s.pushed (s.x a)).setPc (s.pc + 2)
  | .pop a, s => (s.popped.setX a s.top).setPc (s.pc + 2)
  | .call a, s => (s.pushed ((s.pc + 2).setWidth 8)).setPc (zext9 ((s.setX 7 (s.x 7 - 1)).x a))
  | .ret, s => s.popped.setPc (zext9 s.top)
  | .cmp a b, s => (s.recordEquality (s.x a) (s.x b)).setPc (s.pc + 3)
  | .jmp a, s => s.setPc (zext9 (s.x a))
  | .jeq a, s => s.setPc (if s.equal then zext9 (s.x a) else s.pc + 2)
  | .jne a, s => s.setPc (if s.equal then s.pc + 2 else zext9 (s.x a))

theorem exec_eq_executed (i : Instr) (s : State) : exec i s = .next (executed i s) := by
  cases i with
  | hlt => exact exec_hlt s
  | ldi a imm => exact exec_ldi s a imm
  | prn a => exact exec_prn s a
  | mul a b => exact exec_mul s a b
  | add a b => exact exec_add s a b
  | push a => exact exec_push s a
  | pop a => exact exec_pop s a
  | call a => exact exec_call s a
  | ret => exact exec_ret s
  | cmp a b => exact exec_cmp s a b
  | jmp a => exact exec_jmp s a
  | jeq a => exact exec_jeq s a
  | jne a => exact exec_jne s a

/-- What an instruction answers is the state it leaves. -/
theorem eq_executed_of_exec {i : Instr} {s t : State} (h : exec i s = .next t) : t = executed i s := by
  rw [exec_eq_executed] at h
  cases h
  rfl

/-- `pc` after an instruction: up to three further, or a byte (40_execution_cycle.md R125, 45_compare_and_jump.md
R185). -/
theorem executed_pc_cases (i : Instr) (s : State) :
    (∃ k ≤ 3, (executed i s).pc = s.pc + BitVec.ofNat 9 k) ∨ ∃ v, (executed i s).pc = zext9 v := by
  cases i with
  | hlt => exact .inl ⟨1, by decide, rfl⟩
  | prn | push | pop => exact .inl ⟨2, by decide, rfl⟩
  | ldi | mul | add | cmp => exact .inl ⟨3, le_rfl, rfl⟩
  | call | ret | jmp => exact .inr ⟨_, rfl⟩
  | jeq a =>
    cases h : s.equal with
    | true => exact .inr ⟨s.x a, by simp [executed, h]⟩
    | false => exact .inl ⟨2, by decide, by simp [executed, h]⟩
  | jne a =>
    cases h : s.equal with
    | true => exact .inl ⟨2, by decide, by simp [executed, h]⟩
    | false => exact .inr ⟨s.x a, by simp [executed, h]⟩

/-- What a comparison leaves in `fl` (45_compare_and_jump.md R180). -/
theorem State.recordEquality_fl (s : State) (p q : Byte) :
    (s.recordEquality p q).fl = if p = q then s.fl ||| 0x01 else s.fl := by
  unfold State.recordEquality
  split <;> rfl

/-- `fl` is left alone but for a CMP of equal registers, which sets bit 0 (10_state.md R42). -/
theorem executed_fl_cases (i : Instr) (s : State) :
    (executed i s).fl = s.fl ∨
      ∃ a b, i = .cmp a b ∧ s.x a = s.x b ∧ (executed i s).fl = s.fl ||| 0x01 := by
  cases i with
  | cmp a b =>
    have hfl : (executed (.cmp a b) s).fl = if s.x a = s.x b then s.fl ||| 0x01 else s.fl :=
      s.recordEquality_fl _ _
    by_cases h : s.x a = s.x b
    · exact .inr ⟨a, b, rfl, h, by rw [hfl, if_pos h]⟩
    · exact .inl (by rw [hfl, if_neg h])
  | hlt | ldi | prn | mul | add | push | pop | call | ret | jmp | jeq | jne => exact .inl rfl

/-- Memory is left alone but for a PUSH or a CALL, which writes the cell below SP (20_memory.md R65). -/
theorem executed_mem_cases (i : Instr) (s : State) :
    (executed i s).mem = s.mem ∨
      (i.mnemonic = .push ∨ i.mnemonic = .call) ∧
        ∃ v, (executed i s).mem = s.mem.write (s.x 7 - 1).toNat v := by
  cases i with
  | push => exact .inr ⟨.inl rfl, _, rfl⟩
  | call => exact .inr ⟨.inr rfl, _, rfl⟩
  | cmp => exact .inl (s.recordEquality_mem _ _)
  | hlt | ldi | prn | mul | add | pop | ret | jmp | jeq | jne => exact .inl rfl

/-- HLT halts (40_execution_cycle.md R127). -/
@[simp] theorem executed_hlt_run (s : State) : (executed .hlt s).run = .halted := rfl

/-- Nothing but HLT writes the run state (60_exceptions.md R204). -/
theorem executed_run_of_ne_hlt {i : Instr} (h : i ≠ .hlt) (s : State) : (executed i s).run = s.run := by
  cases i with
  | hlt => exact absurd rfl h
  | cmp => exact s.recordEquality_run _ _
  | ldi | prn | mul | add | push | pop | call | ret | jmp | jeq | jne => rfl

/-- No instruction writes the fault latch (60_exceptions.md R204). -/
@[simp] theorem executed_err (i : Instr) (s : State) : (executed i s).err = s.err :=
  exec_keeps_err (exec_eq_executed i s)

/-- No instruction of a Running machine leads to Faulted. -/
theorem executed_run_ne_faulted {i : Instr} {s : State} (h : s.run = .running) : (executed i s).run ≠ .faulted := by
  by_cases hi : i = .hlt
  · rw [hi, executed_hlt_run]
    exact nofun
  · rw [executed_run_of_ne_hlt hi, h]
    exact nofun

end Sys2Proof.Machine

namespace Sys2Proof

open Machine

/-- Settles O33, from the fields `err` and `run` of the state an instruction leaves. -/
theorem executeNeverRaises : Obligations.ExecuteNeverRaises := fun i s =>
  ⟨executed i s, exec_eq_executed i s, executed_err i s, fun h => executed_run_of_ne_hlt h s,
    fun h => h ▸ executed_hlt_run s⟩

end Sys2Proof
end

section
/-! PROOF. The invariant of 40_execution_cycle.md R131: clause by clause for the state an instruction leaves, and then
for a step, whose faults write `run` and `err` together. -/

namespace Sys2Proof

open Machine

/-- From a fetchable `pc` the advance does not wrap (40_execution_cycle.md R125). -/
theorem Fetchable.pc_add {s : State} (hs : Fetchable s) {k : Nat} (hk : k ≤ 3) :
    (s.pc + BitVec.ofNat 9 k).toNat = s.pc.toNat + k := by
  have hpc : s.pc.toNat ≤ 0xFD := hs
  bv_omega

/-- An instruction at a fetchable `pc` leaves it at 0x100 or below. -/
theorem executed_pc_le (i : Instr) {s : State} (hs : Fetchable s) : (executed i s).pc.toNat ≤ 0x100 := by
  obtain ⟨k, hk, hpc⟩ | ⟨v, hpc⟩ := executed_pc_cases i s
  · have hle : s.pc.toNat ≤ 0xFD := hs
    rw [hpc, hs.pc_add hk]
    omega
  · rw [hpc, zext9_toNat]
    omega

/-- Setting bit 0 of a flag register that is 0 or 1 gives 1. -/
theorem executed_fl_bit (i : Instr) {s : State} (h : s.fl = 0x00 ∨ s.fl = 0x01) :
    (executed i s).fl = 0x00 ∨ (executed i s).fl = 0x01 := by
  obtain hfl | ⟨_, _, _, _, hfl⟩ := executed_fl_cases i s
  · rwa [hfl]
  · right
    obtain h | h := h <;> rw [hfl, h] <;> rfl

/-- The cell below SP is inside the address space, so an instruction keeps memory canonical. -/
theorem executed_mem_wf (i : Instr) {s : State} (h : s.mem.wf) : (executed i s).mem.wf := by
  obtain hmem | ⟨_, v, hmem⟩ := executed_mem_cases i s
  · rwa [hmem]
  · rw [hmem]
    exact Memory.wf_write h (s.x 7 - 1).isLt v

/-- An instruction executed from a fetchable `pc` of a Running machine keeps the invariant. -/
theorem Inv.executed {s : State} (hs : Inv s) (hrun : s.run = .running) (hpc : Fetchable s) (i : Instr) :
    Inv (executed i s) where
  pc_le := executed_pc_le i hpc
  fl_bit := executed_fl_bit i hs.fl_bit
  err_iff := by
    have hnone : s.err = .none := hs.err_iff.mpr (by rw [hrun]; exact nofun)
    rw [executed_err]
    exact iff_of_true hnone (executed_run_ne_faulted hrun)
  mem_wf := executed_mem_wf i hs.mem_wf

/-- Taking a fault keeps the invariant: it sets `run` to Faulted and latches something. -/
theorem Inv.raise {s : State} (hs : Inv s) {e : ErrKind} (he : e ≠ .none) : Inv (s.raise e) where
  pc_le := hs.pc_le
  fl_bit := hs.fl_bit
  err_iff := iff_of_false he (not_not_intro rfl)
  mem_wf := hs.mem_wf

theorem errOf_ne_none (r : Reject) : errOf r ≠ .none := by
  cases r <;> exact nofun

theorem Inv.stepWith {m : OpcodeMap} {s t : State} (hs : Inv s) (h : stepWith m s = .next t) : Inv t := by
  obtain ⟨hrun, ⟨-, rfl⟩ | ⟨-, r, -, rfl⟩ | ⟨hpc, i, -, hexec⟩⟩ := stepWith_cases h
  · exact hs.raise nofun
  · exact hs.raise (errOf_ne_none r)
  · rw [eq_executed_of_exec hexec]
    exact hs.executed hrun hpc i

/-- Settles O46: each of the three things a step can do keeps the invariant. -/
theorem stepKeepsTheInvariant : Obligations.StepKeepsTheInvariant := fun _ _ _ => Inv.stepWith

/-- The reset values meet the invariant, so only memory is left to ask for. -/
theorem Inv.hostReset {s : State} (hs : s.mem.wf) : Inv s.hostReset where
  pc_le := Nat.zero_le _
  fl_bit := .inl rfl
  err_iff := iff_of_true rfl nofun
  mem_wf := hs

/-- Settles O47: reset and launch are host resets, with memory empty and with the image placed in it. -/
theorem resetAndLaunchMeetTheInvariant : Obligations.ResetAndLaunchMeetTheInvariant :=
  ⟨Inv.hostReset State.reset_mem_wf,
    fun image => Inv.hostReset (s := State.launch image) (Memory.wf_place Memory.wf_nil 0 image),
    fun _ => Inv.hostReset⟩

/-- A run keeps the invariant, however far it goes. -/
theorem Inv.runFor {s : State} (hs : Inv s) (n : Nat) : Inv (runFor n s) := by
  induction n generalizing s with
  | zero => exact hs
  | succ n ih =>
    simp only [Sys2Proof.runFor]
    split
    · exact ih (hs.stepWith ‹_›)
    · exact hs
    · exact hs

/-- A state in the invariant in which no step is enabled has halted without a fault or latched one. -/
theorem Inv.of_ended {s : State} (hs : Inv s) (h : Ended s) :
    (s.run = .halted ∧ s.err = .none) ∨ (s.run = .faulted ∧ s.err ≠ .none) := by
  cases hrun : s.run with
  | running => exact absurd hrun h
  | halted => exact .inl ⟨rfl, hs.err_iff.mpr (by rw [hrun]; exact nofun)⟩
  | faulted => exact .inr ⟨rfl, fun hnone => hs.err_iff.mp hnone hrun⟩

/-- Settles O48: more fuel is a run from where no step is enabled; the rest is the invariant, which a run keeps. -/
theorem endedRunsStayEnded : Obligations.EndedRunsStayEnded := fun n k s hend =>
  ⟨(runFor_add n k s).trans (runFor_of_not_running k hend), fun hs => (hs.runFor n).of_ended hend⟩

end Sys2Proof
end

section
/-! PROOF. What the decoder accepts (30_encoding.md sections 2 and 4). Decoding goes one of three ways, and
`decode_cases` says which bytes go which way: an unknown opcode, a register index above 7, or an instruction. -/

namespace Sys2Proof

/-- The operand bytes a row marks "reg" are register indices (30_encoding.md R95, R102). -/
abbrev Mnemonic.OperandsFit (k : Mnemonic) (opa opb : Byte) : Prop :=
  (k.kindA = .reg → opa.toNat ≤ 7) ∧ (k.kindB = .reg → opb.toNat ≤ 7)

/-- An index check in front of a result: the byte must be an index and the rest must succeed. -/
theorem exists_regidx_bind_eq_ok_iff {α : Type} {v : Byte} {f : Reg → Except Reject α} {p : Prop}
    (h : ∀ r, (∃ x, f r = .ok x) ↔ p) : (∃ x, (regidx v >>= f) = .ok x) ↔ v.toNat ≤ 7 ∧ p := by
  constructor
  · rintro ⟨x, hx⟩
    obtain ⟨r, hr, hf⟩ := regidx_bind_eq_ok hx
    exact ⟨(regidx_eq_ok hr).2, (h r).mp ⟨x, hf⟩⟩
  · rintro ⟨hv, hp⟩
    obtain ⟨x, hx⟩ := (h ⟨v.toNat, by omega⟩).mpr hp
    refine ⟨x, ?_⟩
    rw [regidx_of_toNat (r := ⟨v.toNat, by omega⟩) rfl]
    exact hx

/-- An index check in front of a result that fails: the index or the rest did. -/
theorem regidx_bind_eq_error {α : Type} {v : Byte} {f : Reg → Except Reject α} {r : Reject}
    (h : (regidx v >>= f) = .error r) : r = .registerIndex v ∨ ∃ a, f a = .error r := by
  by_cases hv : v.toNat > 7
  · rw [regidx_of_gt hv] at h
    cases h
    exact .inl rfl
  · rw [regidx_of_toNat (r := ⟨v.toNat, by omega⟩) rfl] at h
    exact .inr ⟨_, h⟩

/-- The operand phase succeeds exactly if the operand bytes fit the row. -/
theorem exists_operandsOf_eq_ok_iff {opa opb : Byte} {k : Mnemonic} :
    (∃ i, operandsOf opa opb k = .ok i) ↔ k.OperandsFit opa opb := by
  have one : ∀ mk : Reg → Instr, (∃ i, (regidx opa >>= fun a => pure (mk a)) = .ok i) ↔ opa.toNat ≤ 7 := fun mk =>
    (exists_regidx_bind_eq_ok_iff fun a => iff_true_intro ⟨mk a, rfl⟩).trans (iff_of_eq (and_true _))
  have two : ∀ mk : Reg → Reg → Instr,
      (∃ i, (regidx opa >>= fun a => regidx opb >>= fun b => pure (mk a b)) = .ok i) ↔
        opa.toNat ≤ 7 ∧ opb.toNat ≤ 7 := fun mk =>
    exists_regidx_bind_eq_ok_iff fun a =>
      (exists_regidx_bind_eq_ok_iff fun b => iff_true_intro ⟨mk a b, rfl⟩).trans (iff_of_eq (and_true _))
  cases k with
  | hlt | ret => exact iff_of_true ⟨_, rfl⟩ ⟨nofun, nofun⟩
  | ldi | prn | push | pop | call | jmp | jeq | jne =>
    exact (one _).trans ⟨fun h => ⟨fun _ => h, nofun⟩, fun h => h.1 rfl⟩
  | mul | add | cmp =>
    exact (two _).trans ⟨fun h => ⟨fun _ => h.1, fun _ => h.2⟩, fun h => ⟨h.1 rfl, h.2 rfl⟩⟩

/-- The operand phase refuses only under the name of a register index. -/
theorem operandsOf_eq_error {opa opb : Byte} {k : Mnemonic} {r : Reject} (h : operandsOf opa opb k = .error r) :
    ∃ v, r = .registerIndex v := by
  cases k with
  | hlt | ret => cases h
  | ldi | prn | push | pop | call | jmp | jeq | jne =>
    obtain hr | ⟨_, hr⟩ := regidx_bind_eq_error h
    · exact ⟨opa, hr⟩
    · cases hr
  | mul | add | cmp =>
    obtain hr | ⟨_, hr⟩ := regidx_bind_eq_error h
    · exact ⟨opa, hr⟩
    · obtain hr | ⟨_, hr⟩ := regidx_bind_eq_error hr
      · exact ⟨opb, hr⟩
      · cases hr

/-- Where the operand bytes do not fit, the operand phase refuses. -/
theorem operandsOf_of_not_fit {opa opb : Byte} {k : Mnemonic} (h : ¬ k.OperandsFit opa opb) :
    ∃ v, operandsOf opa opb k = .error (.registerIndex v) := by
  cases hops : operandsOf opa opb k with
  | ok i => exact absurd (exists_operandsOf_eq_ok_iff.mp ⟨i, hops⟩) h
  | error r =>
    obtain ⟨v, rfl⟩ := operandsOf_eq_error hops
    exact ⟨v, rfl⟩

/-- Behind an opcode byte, being an instruction is a matter of the operand bytes. -/
theorem wellFormed_iff_operandsFit {m : OpcodeMap} (hd : m.Distinct) {f : Fetched} {k : Mnemonic}
    (hir : f.ir = m.byte k) : f.WellFormed m ↔ k.OperandsFit f.opa f.opb := by
  constructor
  · rintro ⟨j, -, hj, hfit⟩
    rwa [← OpcodeMap.byte_injective hd (hj.symm.trans hir)]
  · exact fun hfit => ⟨k, k.mem_all, hir, hfit⟩

theorem not_wellFormed_of_ne_byte {m : OpcodeMap} {f : Fetched} (h : ∀ k, f.ir ≠ m.byte k) : ¬ f.WellFormed m :=
  fun ⟨k, _, hk, _⟩ => h k hk

/-- HLT has no operands, so its byte alone is an instruction. -/
theorem wellFormed_of_hlt {m : OpcodeMap} {f : Fetched} (h : f.ir = m.hlt) : f.WellFormed m :=
  ⟨.hlt, Mnemonic.mem_all .hlt, h, nofun, nofun⟩

/-- The three ways decoding goes, each with the bytes that go that way (30_encoding.md R99, R102). -/
theorem decode_cases {m : OpcodeMap} (hd : m.Distinct) (f : Fetched) :
    ((∀ k, f.ir ≠ m.byte k) ∧ decode m f = .error (.unknownOpcode f.ir)) ∨
    ((∃ k, f.ir = m.byte k) ∧ ¬ f.WellFormed m ∧ ∃ v, decode m f = .error (.registerIndex v)) ∨
    ((∃ k, f.ir = m.byte k) ∧ f.WellFormed m ∧ ∃ i, decode m f = .ok i) := by
  by_cases hk : ∃ k, f.ir = m.byte k
  · obtain ⟨k, hir⟩ := hk
    have hwf := wellFormed_iff_operandsFit hd hir
    rw [decode_of_ir hd hir]
    by_cases hfit : k.OperandsFit f.opa f.opb
    · exact .inr (.inr ⟨⟨k, hir⟩, hwf.mpr hfit, exists_operandsOf_eq_ok_iff.mpr hfit⟩)
    · exact .inr (.inl ⟨⟨k, hir⟩, mt hwf.mp hfit, operandsOf_of_not_fit hfit⟩)
  · have hne : ∀ k, f.ir ≠ m.byte k := not_exists.mp hk
    exact .inl ⟨hne, decode_of_ne_byte hne⟩

/-- Settles O6: the three ways of `decode_cases` exclude each other, and each gives every clause its truth value. -/
theorem decoderAcceptsExactlyWellFormedBytes : Obligations.DecoderAcceptsExactlyWellFormedBytes := by
  intro m f ⟨_, hdistinct, _⟩
  obtain ⟨hne, hdec⟩ | ⟨hknown, hwf, v, hdec⟩ | ⟨hknown, hwf, i, hdec⟩ := decode_cases hdistinct f
  · have hwf := not_wellFormed_of_ne_byte hne
    simp [hdec, hwf, hne]
  · simp [hdec, hwf, hknown]
  · simp [hdec, hwf, hknown]

end Sys2Proof
end

section
/-! PROOF. Counting the bytes that are no opcode (30_encoding.md section 4): the others are the 13 bytes of the map,
each once. -/

namespace Sys2Proof

/-- The bytes of a map, as numbers. -/
def OpcodeMap.numbers (m : OpcodeMap) : List Nat := Mnemonic.all.map fun k => (m.byte k).toNat

theorem OpcodeMap.numbers_nodup {m : OpcodeMap} (hd : m.Distinct) : m.numbers.Nodup := by
  have : m.numbers = (Mnemonic.all.map m.byte).map BitVec.toNat := by simp [numbers]
  rw [this]
  exact hd.map fun _ _ => BitVec.eq_of_toNat_eq

/-- The numbers below 256 whose byte is an opcode are those of the map. -/
theorem mem_numbers_iff {m : OpcodeMap} {n : Nat} :
    n ∈ m.numbers ↔ n ∈ (List.range 256).filter fun n => !(lookup m (BitVec.ofNat 8 n)).isNone := by
  constructor
  · intro h
    obtain ⟨k, -, rfl⟩ := List.mem_map.mp h
    have hsome : (lookup m (m.byte k)).isSome :=
      Option.isSome_iff_ne_none.mpr fun hnone => lookup_eq_none.mp hnone k rfl
    simp [hsome, (m.byte k).isLt]
  · intro h
    obtain ⟨hn, hsome⟩ := List.mem_filter.mp h
    rw [Option.not_isNone] at hsome
    obtain ⟨k, hk⟩ := Option.isSome_iff_exists.mp hsome
    refine List.mem_map.mpr ⟨k, k.mem_all, ?_⟩
    rw [lookup_eq_some hk, BitVec.toNat_ofNat, Nat.mod_eq_of_lt (List.mem_range.mp hn)]

/-- Under a legal map exactly 243 numbers below 256 are no opcode. -/
theorem length_filter_lookup_isNone {m : OpcodeMap} (hd : m.Distinct) :
    ((List.range 256).filter fun n => (lookup m (BitVec.ofNat 8 n)).isNone).length = 243 := by
  have hperm : m.numbers.Perm ((List.range 256).filter fun n => !(lookup m (BitVec.ofNat 8 n)).isNone) :=
    (List.perm_ext_iff_of_nodup (OpcodeMap.numbers_nodup hd) (List.nodup_range.filter _)).mpr fun _ => mem_numbers_iff
  have hopcodes : m.numbers.length = 13 := List.length_map _
  have hsplit := List.length_eq_length_filter_add (l := List.range 256) fun n => (lookup m (BitVec.ofNat 8 n)).isNone
  rw [List.length_range, ← hperm.length_eq, hopcodes] at hsplit
  omega

/-- A byte with bits 7:6 = 11 is no opcode: no row has three operands (30_encoding.md R95). -/
theorem lookup_of_operandCount_eq_three {m : OpcodeMap} (hb : m.BitsFit) {ir : Byte} (h : operandCount ir = 3) :
    lookup m ir = none := by
  refine lookup_eq_none.mpr fun k hk => ?_
  have hcount := (OpcodeMap.bits_of_legal hb k).1
  have hle := k.operands_le_two
  rw [hk] at hcount
  omega

/-- The byte 0x00 is no opcode: without operands and not writing `pc` there is only HLT, which is 0x01. -/
theorem lookup_zero {m : OpcodeMap} (h : m.Legal) : lookup m 0x00 = none := by
  obtain ⟨⟨hhlt, -, -, -⟩, -, hb⟩ := h
  refine lookup_eq_none.mpr fun k hk => ?_
  obtain ⟨hcount, hsets⟩ := OpcodeMap.bits_of_legal hb k
  rw [hk] at hcount hsets
  cases k with
  | hlt => simp [OpcodeMap.byte, hhlt] at hk
  | ret => exact absurd hsets (by decide)
  | ldi | prn | mul | add | push | pop | call | cmp | jmp | jeq | jne => exact absurd hcount (by decide)

/-- Settles O7, by counting the opcodes instead of the others. -/
theorem illegalOpcodesAre243 : Obligations.IllegalOpcodesAre243 := fun _ h =>
  ⟨length_filter_lookup_isNone h.2.1, fun _ => lookup_of_operandCount_eq_three h.2.2, lookup_zero h⟩

/-- Settles O2: the default bytes are checked one by one, and each word begins with the encoding of its row. -/
theorem defaultOpcodeWordsDecode : Obligations.DefaultOpcodeWordsDecode := by
  have hlegal : opcodes.Legal := by decide
  refine ⟨hlegal, ?_⟩
  simp only [decode_eq_ok_iff_encode hlegal.2.1]
  exact ⟨rfl, rfl, rfl, rfl, rfl, rfl, rfl, rfl, rfl⟩

end Sys2Proof
end

section
/-! PROOF. The phases of a step (40_execution_cycle.md sections 1 to 5, 60_exceptions.md): when it is enabled, which
fault it takes and which run state it leads to, from the three ways a decode goes. -/

namespace Sys2Proof.Machine

open Claims

theorem stepWith_of_halted {m : OpcodeMap} {s : State} (h : s.run = .halted) : stepWith m s = .fault .halted := by
  simp only [stepWith, h]

theorem stepWith_of_faulted {m : OpcodeMap} {s : State} (h : s.run = .faulted) : stepWith m s = .fault .faulted := by
  simp only [stepWith, h]

/-- In Running there is always a next state (40_execution_cycle.md R121). -/
theorem exists_stepWith_eq_next (m : OpcodeMap) {s : State} (h : s.run = .running) : ∃ t, stepWith m s = .next t := by
  by_cases hpc : s.pc.toNat ≤ 0xFD
  · cases hdec : decode m s.bytesAtPc with
    | error r => exact ⟨_, stepWith_of_decode_error h hpc hdec⟩
    | ok i => exact ⟨executed i s, (stepWith_of_decode_ok h hpc hdec).trans (exec_eq_executed i s)⟩
  · exact ⟨_, stepWith_of_pc_gt h (by omega)⟩

theorem bytesAtPc_eq {s : State} {f : Fetched} (h : BytesAtPc s f.ir f.opa f.opb) : s.bytesAtPc = f := by
  obtain ⟨hir, hopa, hopb⟩ := h
  rw [State.bytesAtPc, hir, hopa, hopb]

/-- Taking a fault changes `run` and `err` alone (60_exceptions.md R206). -/
theorem faultsWith_of_eq_raise {o : Host.Outcome State Fault Refusal} {s : State} {e : ErrKind}
    (h : o = .next (s.raise e)) : FaultsWith o s e :=
  ⟨s.raise e, h, rfl, rfl, rfl, rfl, rfl, rfl, rfl⟩

theorem faultsWith_of_pc_gt {m : OpcodeMap} {s : State} (hrun : s.run = .running) (hpc : s.pc.toNat > 0xFD) :
    FaultsWith (stepWith m s) s .addressError :=
  faultsWith_of_eq_raise (stepWith_of_pc_gt hrun hpc)

theorem faultsWith_of_decode_error {m : OpcodeMap} {s : State} {r : Reject} (hrun : s.run = .running)
    (hpc : s.pc.toNat ≤ 0xFD) (hdec : decode m s.bytesAtPc = .error r) :
    FaultsWith (stepWith m s) s (errOf r) :=
  faultsWith_of_eq_raise (stepWith_of_decode_error hrun hpc hdec)

/-- HLT is the one instruction with its mnemonic. -/
theorem eq_hlt_of_mnemonic {i : Instr} (h : i.mnemonic = .hlt) : i = .hlt := by
  cases i with
  | hlt => rfl
  | ldi | prn | mul | add | push | pop | call | ret | cmp | jmp | jeq | jne => cases h

/-- The run state a step leads to, by the fetched bytes (40_execution_cycle.md section 5). -/
theorem stepWith_run_cases {m : OpcodeMap} {s t : State} (hm : m.Legal) (h : stepWith m s = .next t) :
    (t.run = .faulted ∧ ¬ (Fetchable s ∧ s.bytesAtPc.WellFormed m)) ∨
    (Fetchable s ∧ s.bytesAtPc.WellFormed m ∧
      (t.run = .halted ∧ s.bytesAtPc.ir = m.hlt ∨ t.run = .running ∧ s.bytesAtPc.ir ≠ m.hlt)) := by
  have haccepts := (decoderAcceptsExactlyWellFormedBytes m s.bytesAtPc hm).1
  obtain ⟨hrun, ⟨hpc, rfl⟩ | ⟨-, r, hdec, rfl⟩ | ⟨hpc, i, hdec, hexec⟩⟩ := stepWith_cases h
  · exact .inl ⟨rfl, fun ⟨hle, _⟩ => absurd hpc (Nat.not_lt.mpr hle)⟩
  · refine .inl ⟨rfl, fun ⟨_, hwf⟩ => ?_⟩
    obtain ⟨i, hi⟩ := haccepts.mpr hwf
    rw [hdec] at hi
    cases hi
  · refine .inr ⟨hpc, haccepts.mp ⟨i, hdec⟩, ?_⟩
    have hir : s.bytesAtPc.ir = m.byte i.mnemonic := (decode_eq_ok hdec).1
    rw [eq_executed_of_exec hexec, hir]
    by_cases hi : i = .hlt
    · subst hi
      exact .inl ⟨rfl, rfl⟩
    · refine .inr ⟨(executed_run_of_ne_hlt hi s).trans hrun, fun hhlt => hi ?_⟩
      exact eq_hlt_of_mnemonic (OpcodeMap.byte_injective hm.2.1 hhlt)

end Sys2Proof.Machine

namespace Sys2Proof

open Machine Claims

/-- Settles O40: the equation for bytes that decode, and `step` by its definition. -/
theorem stepRunsTheDecodedInstruction : Obligations.StepRunsTheDecodedInstruction :=
  ⟨fun _ _ _ => stepWith_of_decode_ok, fun _ => rfl⟩

/-- Settles O44, by the three values of `run`. -/
theorem stepIsEnabledExactlyWhileRunning : Obligations.StepIsEnabledExactlyWhileRunning := fun m _ =>
  ⟨exists_stepWith_eq_next m, stepWith_of_halted, stepWith_of_faulted⟩

/-- Settles O42: of the three things a step can do, executing an instruction does not lead to Faulted. -/
theorem faultEntryIsPrecise : Obligations.FaultEntryIsPrecise := by
  intro m s t h hfaulted
  obtain ⟨hrun, ⟨-, rfl⟩ | ⟨-, r, -, rfl⟩ | ⟨-, i, -, hexec⟩⟩ := stepWith_cases h
  · exact ⟨nofun, rfl⟩
  · exact ⟨errOf_ne_none r, rfl⟩
  · rw [eq_executed_of_exec hexec] at hfaulted
    exact absurd hfaulted (executed_run_ne_faulted hrun)

/-- Settles O41: behind a fetch that succeeds the three ways of `decode_cases` are the three remaining branches. -/
theorem faultsInThePhaseOrder : Obligations.FaultsInThePhaseOrder := by
  intro m s f ⟨_, hdistinct, _⟩ hrun hbytes
  split
  · exact faultsWith_of_pc_gt hrun ‹_›
  have hpc : s.pc.toNat ≤ 0xFD := Nat.not_lt.mp ‹_›
  obtain rfl := bytesAtPc_eq hbytes
  obtain ⟨hne, hdec⟩ | ⟨⟨k, hk⟩, hwf, v, hdec⟩ | ⟨⟨k, hk⟩, hwf, i, hdec⟩ := decode_cases hdistinct s.bytesAtPc
  · rw [if_pos fun k _ => hne k]
    exact faultsWith_of_decode_error hrun hpc hdec
  · rw [if_neg fun h => h k k.mem_all hk, if_pos hwf]
    exact faultsWith_of_decode_error hrun hpc hdec
  · rw [if_neg fun h => h k k.mem_all hk, if_neg (not_not_intro hwf)]
    exact ⟨executed i s, (stepWith_of_decode_ok hrun hpc hdec).trans (exec_eq_executed i s),
      executed_run_ne_faulted hrun, executed_err i s⟩

/-- Settles O43: `stepWith_run_cases` names the run state with the bytes that lead to it, and the cases exclude each
other. -/
theorem runStateTransitions : Obligations.RunStateTransitions := by
  intro m s t f hm hbytes h
  obtain rfl := bytesAtPc_eq hbytes
  refine ⟨(stepWith_cases h).1, ?_⟩
  obtain ⟨hrun, hnot⟩ | ⟨hpc, hwf, ⟨hrun, hir⟩ | ⟨hrun, hir⟩⟩ := stepWith_run_cases hm h
  · have hhlt : ¬ (Fetchable s ∧ s.bytesAtPc.ir = m.hlt) := fun ⟨hpc, hir⟩ => hnot ⟨hpc, wellFormed_of_hlt hir⟩
    rw [hrun]
    exact ⟨iff_of_false nofun hhlt, iff_of_true rfl hnot, iff_of_false nofun fun ⟨hpc, hwf, _⟩ => hnot ⟨hpc, hwf⟩⟩
  · rw [hrun]
    exact ⟨iff_of_true rfl ⟨hpc, hir⟩, iff_of_false nofun (not_not_intro ⟨hpc, hwf⟩),
      iff_of_false nofun fun ⟨_, _, hne⟩ => hne hir⟩
  · rw [hrun]
    exact ⟨iff_of_false nofun fun ⟨_, hhlt⟩ => hir hhlt, iff_of_false nofun (not_not_intro ⟨hpc, hwf⟩),
      iff_of_true rfl ⟨hpc, hwf, hir⟩⟩

end Sys2Proof
end

section
/-! PROOF. The step at the bytes of an instruction, once for each operand form (30_encoding.md R94, R102). -/

namespace Sys2Proof

open Machine Claims

section
variable {k : Mnemonic}

/-- At the bytes of `k` decoding is the operand phase of `k`. -/
theorem decode_bytesAtPc {m : OpcodeMap} (hd : m.Distinct) {s : State} {b1 b2 : Byte}
    (h : BytesAtPc s (m.byte k) b1 b2) : decode m s.bytesAtPc = operandsOf b1 b2 k := by
  rw [bytesAtPc_eq (f := ⟨m.byte k, b1, b2⟩) h]
  exact decode_of_ir hd rfl

theorem stepsAsF0_of_operandsOf {i : Instr} (hops : ∀ opa opb, operandsOf opa opb k = .ok i) : StepsAsF0 k i := by
  intro m s b1 b2 ⟨_, hdistinct, _⟩ hrun hbytes
  have hdec := decode_bytesAtPc hdistinct hbytes
  exact ⟨faultsWith_of_pc_gt hrun, fun hpc => stepWith_of_decode_ok hrun hpc (hdec.trans (hops b1 b2))⟩

theorem stepsAsReg_of_operandsOf {mk : Reg → Byte → Instr}
    (hops : ∀ opa opb, operandsOf opa opb k = regidx opa >>= fun a => pure (mk a opb)) : StepsAsReg k mk := by
  intro m s b1 b2 ⟨_, hdistinct, _⟩ hrun hbytes
  have hdec := (decode_bytesAtPc hdistinct hbytes).trans (hops b1 b2)
  refine ⟨faultsWith_of_pc_gt hrun, fun hpc hgt => ?_, fun a hpc ha => ?_⟩
  · rw [regidx_of_gt hgt] at hdec
    exact faultsWith_of_decode_error hrun hpc hdec
  · rw [regidx_of_toNat ha] at hdec
    exact stepWith_of_decode_ok hrun hpc hdec

theorem stepsAsRegReg_of_operandsOf {mk : Reg → Reg → Instr}
    (hops : ∀ opa opb, operandsOf opa opb k = regidx opa >>= fun a => regidx opb >>= fun b => pure (mk a b))
    (hkind : k.kindA = .reg ∧ k.kindB = .reg) : StepsAsRegReg k mk := by
  intro m s b1 b2 ⟨_, hdistinct, _⟩ hrun hbytes
  have hdec := decode_bytesAtPc hdistinct hbytes
  refine ⟨faultsWith_of_pc_gt hrun, fun hpc hgt => ?_, fun a b hpc ha hb => ?_⟩
  · have hnot : ¬ k.OperandsFit b1 b2 := fun ⟨hfa, hfb⟩ => by
      have := hfa hkind.1
      have := hfb hkind.2
      omega
    obtain ⟨v, hv⟩ := operandsOf_of_not_fit hnot
    exact faultsWith_of_decode_error hrun hpc (hdec.trans hv)
  · rw [hops, regidx_of_toNat ha, regidx_of_toNat hb] at hdec
    exact stepWith_of_decode_ok hrun hpc hdec

end

end Sys2Proof
end

section
/-! PROOF. The instructions one by one (41_data_and_system.md to 45_compare_and_jump.md): the state each leaves, read
field by field, and the step at its bytes. -/

namespace Sys2Proof

open Machine Claims

section
variable {s : State}

theorem Fetchable.pc_add_two (hs : Fetchable s) : (s.pc + 2).toNat = s.pc.toNat + 2 := hs.pc_add (k := 2) (by decide)

theorem Fetchable.pc_add_three (hs : Fetchable s) : (s.pc + 3).toNat = s.pc.toNat + 3 := hs.pc_add (k := 3) le_rfl

/-- The return address of a CALL at a fetchable `pc` fits a byte (44_subroutine.md R170). -/
theorem Fetchable.returnAddress_toNat (hs : Fetchable s) : s.returnAddress.toNat = s.pc.toNat + 2 := by
  have hpc : s.pc.toNat ≤ 0xFD := hs
  have hret : s.returnAddress = (s.pc + 2).setWidth 8 := rfl
  rw [hret, BitVec.toNat_setWidth, hs.pc_add_two]
  omega

end

/-- A push changes the cell below SP and no other (43_stack.md R160). -/
theorem memKept_pushed (s : State) (v : Byte) : MemKept s (s.pushed v) [(s.x 7 - 1).toNat] :=
  fun _ ha => Memory.read_write_of_ne s.mem v (List.ne_of_not_mem_cons ha)

theorem regsKept_pushed (s : State) (v : Byte) : RegsKept s (s.pushed v) [7] := regsKept_setX s 7 (s.x 7 - 1)

theorem controlKept_pushed (s : State) (v : Byte) : ControlKept s (s.pushed v) := controlKept_setX s 7 (s.x 7 - 1)

theorem regsKept_popped (s : State) : RegsKept s s.popped [7] := regsKept_setX s 7 (s.x 7 + 1)

/-- Settles O16: HLT's fields, the step that finds Halted, and the bytes that lead there. -/
theorem hltHaltsOnePastItself : Obligations.HltHaltsOnePastItself := by
  refine ⟨fun s hs => ?_, fun m s t hm h ht => ?_, stepsAsF0_of_operandsOf fun _ _ => rfl⟩
  · exact ⟨_, exec_hlt s, rfl, hs.pc_add (k := 1) (by decide), fun _ _ => rfl, fun _ _ => rfl, rfl, rfl, rfl,
      fun _ => stepWith_of_halted rfl⟩
  · obtain ⟨hrun, -⟩ | ⟨-, -, ⟨-, hir⟩ | ⟨hrun, -⟩⟩ := stepWith_run_cases hm h
    · rw [ht] at hrun
      cases hrun
    · exact hir
    · rw [ht] at hrun
      cases hrun

/-- Settles O17: LDI is a register write with the advance. -/
theorem ldiLoadsTheImmediate : Obligations.LdiLoadsTheImmediate :=
  ⟨fun a imm s hs => ⟨_, exec_ldi s a imm, s.setX_x_self a imm, hs.pc_add_three, regsKept_setX s a imm,
      fun _ _ => rfl, controlKept_setX s a imm⟩,
    stepsAsReg_of_operandsOf fun _ _ => rfl⟩

/-- Settles O18: PRN is an emission with the advance. -/
theorem prnEmitsTheRegister : Obligations.PrnEmitsTheRegister :=
  ⟨fun a s hs => ⟨_, exec_prn s a, rfl, hs.pc_add_two, fun _ _ => rfl, fun _ _ => rfl, rfl, rfl, rfl⟩,
    stepsAsReg_of_operandsOf fun _ _ => rfl⟩

/-- Settles O19: MUL is a register write of the product of two bytes. -/
theorem mulIsProductMod256 : Obligations.MulIsProductMod256 := by
  refine ⟨fun a b s hs => ⟨_, exec_mul s a b, ?_, hs.pc_add_three,
    regsKept_setX s a (s.x a * s.x b), fun _ _ => rfl, controlKept_setX s a (s.x a * s.x b)⟩,
    stepsAsRegReg_of_operandsOf (fun _ _ => rfl) ⟨rfl, rfl⟩⟩
  rw [State.setPc_x, State.setX_x_self, BitVec.toNat_mul]

/-- Settles O20: ADD is a register write of the sum of two bytes. -/
theorem addIsSumMod256 : Obligations.AddIsSumMod256 := by
  refine ⟨fun a b s hs => ⟨_, exec_add s a b, ?_, hs.pc_add_three,
    regsKept_setX s a (s.x a + s.x b), fun _ _ => rfl, controlKept_setX s a (s.x a + s.x b)⟩,
    stepsAsRegReg_of_operandsOf (fun _ _ => rfl) ⟨rfl, rfl⟩⟩
  rw [State.setPc_x, State.setX_x_self, BitVec.toNat_add]

/-- Settles O21: PUSH is the push primitive on the register as it was before. -/
theorem pushStoresTheRegister : Obligations.PushStoresTheRegister :=
  ⟨fun a s hs => ⟨_, exec_push s a, s.pushed_x_seven (s.x a), Memory.read_write_self _ _ _, hs.pc_add_two,
      regsKept_pushed s (s.x a), memKept_pushed s (s.x a), controlKept_pushed s (s.x a)⟩,
    stepsAsReg_of_operandsOf fun _ _ => rfl⟩

/-- Settles O22: POP is the pop primitive followed by the register write, which is the last word on R7. -/
theorem popLoadsTheTopByte : Obligations.PopLoadsTheTopByte := by
  refine ⟨fun a s hs => ⟨_, exec_pop s a, State.setX_x_self _ a _, fun ha => ?_, hs.pc_add_two, fun r hr => ?_,
    fun _ _ => rfl, rfl, ⟨rfl, rfl⟩, rfl⟩, stepsAsReg_of_operandsOf fun _ _ => rfl⟩
  · rw [State.setPc_x, State.setX_x_of_ne _ _ _ _ ha.symm, State.setX_x_self]
  · have hr7 : r ≠ 7 := List.ne_of_not_mem_cons hr
    have hra : r ≠ a := List.ne_of_not_mem_cons (List.not_mem_of_not_mem_cons hr)
    rw [State.setPc_x, State.setX_x_of_ne _ _ _ _ hra, State.setX_x_of_ne _ _ _ _ hr7]

/-- Settles O23: CALL is the push primitive on the return address, with the target read after it. -/
theorem callPushesTheReturnAddress : Obligations.CallPushesTheReturnAddress := by
  refine ⟨fun a s hs => ?_, stepsAsReg_of_operandsOf fun _ _ => rfl⟩
  refine ⟨_, exec_call s a, s.pushed_x_seven s.returnAddress, ?_, ?_, regsKept_pushed s s.returnAddress,
    memKept_pushed s s.returnAddress, controlKept_pushed s s.returnAddress⟩
  · rw [State.setPc_mem, State.setMem_mem, Memory.read_write_self]
    exact hs.returnAddress_toNat
  · rw [State.setPc_pc, zext9_toNat, State.setX_x]

/-- Settles O24: RET is the pop primitive with the byte as target. -/
theorem retJumpsToTheTopByte : Obligations.RetJumpsToTheTopByte :=
  ⟨fun s _ => ⟨_, exec_ret s, zext9_toNat _, s.popped_x_seven, regsKept_popped s, fun _ _ => rfl, rfl, ⟨rfl, rfl⟩, rfl⟩,
    stepsAsF0_of_operandsOf fun _ _ => rfl⟩

/-- Settles O25: CMP's fields are those of the recorded comparison. -/
theorem cmpSetsTheStickyEqualFlag : Obligations.CmpSetsTheStickyEqualFlag := by
  refine ⟨fun a b s hs => ⟨_, exec_cmp s a b, fun heq => ?_, fun hne => ?_, hs.pc_add_three, fun r _ => ?_,
    fun c _ => ?_, ⟨?_, ?_⟩, ?_⟩, stepsAsRegReg_of_operandsOf (fun _ _ => rfl) ⟨rfl, rfl⟩⟩
  · rw [State.setPc_fl, State.recordEquality, if_pos heq]
    exact ⟨s.equal_setEqual, fun k hk => s.setEqual_fl_reserved (by omega)⟩
  · rw [State.setPc_fl, State.recordEquality, if_neg hne]
  · exact s.recordEquality_x _ _ r
  · exact congrArg (Memory.read · c) (s.recordEquality_mem _ _)
  · exact s.recordEquality_run _ _
  · exact s.recordEquality_err _ _
  · exact s.recordEquality_out _ _

/-- Settles O26: JMP writes `pc` alone. -/
theorem jmpGoesToTheRegister : Obligations.JmpGoesToTheRegister :=
  ⟨fun a s => ⟨_, exec_jmp s a, zext9_toNat _, fun _ _ => rfl, fun _ _ => rfl, rfl, ⟨rfl, rfl⟩, rfl⟩,
    stepsAsReg_of_operandsOf fun _ _ => rfl⟩

/-- Settles O27: JEQ writes `pc` alone, by the value of E. -/
theorem jeqJumpsIfEqualIsSet : Obligations.JeqJumpsIfEqualIsSet := by
  refine ⟨fun a s hs => ⟨_, exec_jeq s a, ?_, fun _ _ => rfl, fun _ _ => rfl, rfl, ⟨rfl, rfl⟩, rfl⟩,
    stepsAsReg_of_operandsOf fun _ _ => rfl⟩
  rw [State.setPc_pc, apply_ite BitVec.toNat, zext9_toNat, hs.pc_add_two]
  rfl

/-- Settles O28: JNE writes `pc` alone, by the value of E. -/
theorem jneJumpsIfEqualIsClear : Obligations.JneJumpsIfEqualIsClear := by
  refine ⟨fun a s hs => ⟨_, exec_jne s a, ?_, fun _ _ => rfl, fun _ _ => rfl, rfl, ⟨rfl, rfl⟩, rfl⟩,
    stepsAsReg_of_operandsOf fun _ _ => rfl⟩
  rw [State.setPc_pc, apply_ite BitVec.toNat, zext9_toNat, hs.pc_add_two]
  change (if s.equal = true then _ else _) = if s.equal = false then _ else _
  cases s.equal <;> rfl

end Sys2Proof
end

section
/-! PROOF. Instructions in sequence and on the stack pointer (43_stack.md R163, R165, R166, 44_subroutine.md R171, R173,
45_compare_and_jump.md R184). -/

namespace Sys2Proof

open Machine Claims

/-- Settles O29: the writes of SP and of memory, seen from register 7. -/
theorem stackPointerAsTheOperand : Obligations.StackPointerAsTheOperand := fun s =>
  ⟨_, _, _, exec_push s 7, exec_pop s 7, exec_call s 7, s.pushed_x_seven (s.x 7), Memory.read_write_self _ _ _,
    State.setX_x_self _ 7 _, s.pushed_x_seven s.returnAddress, by
      rw [State.setPc_pc, zext9_toNat, State.setX_x_self]⟩

/-- A pop after a push answers the byte pushed (43_stack.md R166 (b)). -/
theorem top_pushed (s : State) (v : Byte) : (s.pushed v).top = v := by
  rw [State.top, State.pushed_x_seven, State.pushed_mem, Memory.read_write_self]

/-- A pop after a push leaves every register as it was before both (43_stack.md R166 (b)). -/
theorem popped_pushed_x (s : State) (v : Byte) (r : Reg) : (s.pushed v).popped.x r = s.x r :=
  calc (s.pushed v).popped.x r
    _ = ((s.pushed v).setMem (s.pushed v).mem).popped.x r := rfl
    _ = s.x r := by rw [State.popped_pushed_setMem, State.setMem_x]

/-- Settles O30: POP meets the byte PUSH stored, and SP is back before the popped register is written. -/
theorem pushThenPopMovesTheValue : Obligations.PushThenPopMovesTheValue := by
  intro a b s
  refine ⟨_, _, exec_push s a, exec_pop _ b, ?_, fun r hr => ?_, memKept_pushed s (s.x a),
    Memory.read_write_self _ _ _, rfl, ⟨rfl, rfl⟩, rfl⟩
  · rw [State.setPc_x, State.setX_x_self]
    exact top_pushed s (s.x a)
  · rw [State.setPc_x, State.setX_x_of_ne _ _ _ _ (List.ne_of_not_mem_cons hr)]
    exact popped_pushed_x s (s.x a) r

/-- Settles O31: RET reads the cell and the SP of the CALL, whatever else has changed. -/
theorem retReturnsAfterTheCall : Obligations.RetReturnsAfterTheCall := by
  intro a s hs
  refine ⟨_, exec_call s a, fun u hsp hcell => ⟨_, exec_ret u, ?_, ?_⟩⟩
  · have htop : u.mem.read (u.x 7).toNat = s.returnAddress := by
      rw [hsp, hcell]
      exact top_pushed s s.returnAddress
    rw [State.setPc_pc, zext9_toNat, htop, hs.returnAddress_toNat]
  · have hcall : u.x 7 = s.x 7 - 1 := hsp.trans (s.pushed_x_seven s.returnAddress)
    rw [State.setPc_x, State.setX_x_self, hcall, BitVec.sub_add_cancel]

/-- Settles O32: both jumps read the E the comparison left, and five bytes further is three and then two. -/
theorem jumpsAfterCompare : Obligations.JumpsAfterCompare := by
  intro a b c s hs
  have hpc : s.pc.toNat ≤ 0xFD := hs
  have hnext : (s.pc + 3 + 2).toNat = s.pc.toNat + 5 := by bv_omega
  have hE : (s.recordEquality (s.x a) (s.x b)).equal = true ↔ s.x a = s.x b ∨ s.fl.getLsbD 0 = true := by
    rw [State.recordEquality_equal, Bool.or_eq_true, decide_eq_true_iff]
    rfl
  refine ⟨_, _, _, exec_cmp s a b, exec_jeq _ c, exec_jne _ c, hs.pc_add_three, ?_⟩
  simp only [← hE, State.setPc_pc, State.setPc_x, State.setPc_equal, State.recordEquality_x]
  refine ⟨fun h => ?_, fun h => ?_⟩
  · rw [if_pos h, if_pos h]
    exact ⟨zext9_toNat _, hnext⟩
  · rw [if_neg h, if_neg h]
    exact ⟨hnext, zext9_toNat _⟩

end Sys2Proof
end

section
/-! PROOF. The rules over all instructions (10_state.md R34, R41, R42, 20_memory.md R65, R74): what the state an
instruction leaves owes to one register, to `fl` and to memory. -/

namespace Sys2Proof.Machine

/-- No register outside the "writes" column is changed (10_state.md R34). -/
theorem executed_x_of_not_mem_writes {i : Instr} {r : Reg} (h : r ∉ i.writes) (s : State) :
    (executed i s).x r = s.x r := by
  cases i with
  | hlt | prn | jmp | jeq | jne => rfl
  | cmp => exact s.recordEquality_x _ _ r
  | ldi | mul | add | push | call | ret => exact State.setX_x_of_ne _ _ _ _ (List.ne_of_not_mem_cons h)
  | pop a =>
    have hr7 : r ≠ 7 := List.ne_of_not_mem_cons h
    have hra : r ≠ a := List.ne_of_not_mem_cons (List.not_mem_of_not_mem_cons h)
    exact (State.setX_x_of_ne _ _ _ _ hra).trans (State.setX_x_of_ne _ _ _ _ hr7)

section
variable (s : State) (r : Reg) (v : Byte)

/-- Writes to two registers commute. -/
theorem State.setX_comm {a : Reg} (h : a ≠ r) (w : Byte) : (s.setX r v).setX a w = (s.setX a w).setX r v := by
  refine State.ext_x (fun c => ?_) rfl rfl rfl rfl rfl rfl
  simp only [State.setX_x]
  by_cases hc : c = a
  · simp [hc, h]
  · simp [hc]

/-- The later of two writes to one register is the one that counts. -/
theorem State.setX_setX (w : Byte) : (s.setX r v).setX r w = s.setX r w := by
  refine State.ext_x (fun c => ?_) rfl rfl rfl rfl rfl rfl
  simp only [State.setX_x]
  by_cases hc : c = r
  · simp [hc]
  · simp [hc]

@[simp] theorem State.setX_setPc (p : Pc) : (s.setX r v).setPc p = (s.setPc p).setX r v := rfl
@[simp] theorem State.setX_setMem (m : Memory) : (s.setX r v).setMem m = (s.setMem m).setX r v := rfl
@[simp] theorem State.setX_halt : (s.setX r v).halt = s.halt.setX r v := rfl
@[simp] theorem State.setX_emit (w : Byte) : (s.setX r v).emit w = (s.emit w).setX r v := rfl
@[simp] theorem State.setX_equal : (s.setX r v).equal = s.equal := rfl

@[simp] theorem State.setX_recordEquality (p q : Byte) :
    (s.setX r v).recordEquality p q = (s.recordEquality p q).setX r v := by
  unfold State.recordEquality
  split <;> rfl

end

/-- A register neither read nor written passes through an instruction (10_state.md R34). -/
theorem executed_setX_of_not_mem {i : Instr} {r : Reg} (hr : r ∉ i.reads) (hw : r ∉ i.writes) (v : Byte)
    (s : State) : executed i (s.setX r v) = (executed i s).setX r v := by
  have hread : ∀ a ∈ i.reads, ∀ t : State, (t.setX r v).x a = t.x a := fun a ha t =>
    t.setX_x_of_ne r a v (ne_of_mem_of_not_mem ha hr)
  have hwrite : ∀ a ∈ i.writes, ∀ (t : State) w, (t.setX r v).setX a w = (t.setX a w).setX r v := fun a ha t w =>
    t.setX_comm r v (ne_of_mem_of_not_mem ha hw) w
  cases i with
  | hlt => rfl
  | ldi | prn | mul | add | push | pop | call | ret | cmp | jmp | jeq | jne =>
    simp only [Instr.reads, Instr.writes, List.forall_mem_cons] at hread hwrite
    simp [executed, hread, hwrite, State.pushed, State.popped, State.top]

/-- The old value of a register written without being read is lost (10_state.md R34). -/
theorem executed_setX_of_mem_writes {i : Instr} {r : Reg} (hr : r ∉ i.reads) (hw : r ∈ i.writes) (v : Byte)
    (s : State) : executed i (s.setX r v) = executed i s := by
  cases i with
  | hlt | prn | cmp | jmp | jeq | jne => cases hw
  | mul | add | push | call | ret =>
    have heq : r = _ := List.mem_singleton.mp hw
    simp [Instr.reads, heq] at hr
  | ldi a imm =>
    obtain rfl : r = a := List.mem_singleton.mp hw
    exact congrArg (State.setPc · _) (s.setX_setX r v imm)
  | pop a =>
    have hr7 : 7 ≠ r := (List.ne_of_not_mem_cons hr).symm
    obtain rfl : r = a := by simpa [Instr.writes, hr7.symm] using hw
    simp [executed, State.popped, State.top, State.setX_x_of_ne _ _ _ _ hr7, State.setX_comm _ _ _ hr7,
      State.setX_setX]

/-- The state with another flag register. -/
def State.withFl (s : State) (f : Byte) : State := { s with fl := f }

/-- A comparison keeps or sets bit 0 of whatever `fl` holds. -/
theorem State.withFl_recordEquality (s : State) (f p q : Byte) :
    (s.withFl f).recordEquality p q = (s.recordEquality p q).withFl (if p = q then f ||| 0x01 else f) := by
  unfold State.recordEquality
  split <;> rfl

/-- `fl` reaches nothing but itself unless the instruction is JEQ or JNE (10_state.md R42). -/
theorem executed_withFl {i : Instr} (hjeq : i.mnemonic ≠ .jeq) (hjne : i.mnemonic ≠ .jne) (f : Byte) (s : State) :
    ∃ g, executed i (s.withFl f) = (executed i s).withFl g := by
  cases i with
  | jeq => exact absurd rfl hjeq
  | jne => exact absurd rfl hjne
  | hlt | ldi | prn | mul | add | push | pop | call | ret | jmp => exact ⟨f, rfl⟩
  | cmp a b =>
    have hcmp := congrArg (State.setPc · (s.pc + 3)) (s.withFl_recordEquality f (s.x a) (s.x b))
    exact ⟨_, hcmp⟩

/-- An instruction that changes `fl` is a CMP of equal registers that sets E from clear (10_state.md R41, R42). -/
theorem eq_cmp_of_executed_fl_ne {i : Instr} {s : State} (h : (executed i s).fl ≠ s.fl) :
    s.equal = false ∧ (executed i s).equal = true ∧ ∃ a b, i = .cmp a b ∧ s.x a = s.x b := by
  obtain hfl | ⟨a, b, hi, heq, hfl⟩ := executed_fl_cases i s
  · exact absurd hfl h
  · refine ⟨Bool.not_eq_true _ ▸ fun hE => h ?_, ?_, a, b, hi, heq⟩
    · exact hfl.trans (congrArg State.fl (s.setEqual_of_equal hE))
    · rw [State.equal, hfl]
      exact s.equal_setEqual

/-- What PUSH and CALL store below SP (43_stack.md R162, 44_subroutine.md R170). -/
theorem executed_mem_of_push_or_call {i : Instr} {a : Reg} (h : i = .push a ∨ i = .call a) (s : State) :
    (executed i s).mem =
      s.mem.write (s.x 7 - 1).toNat (if i = .push a then s.x a else (s.pc + 2).setWidth 8) := by
  obtain rfl | rfl := h
  · rw [if_pos rfl]
    rfl
  · rw [if_neg nofun]
    rfl

/-- What a fetch delivers, if it delivers anything, are the bytes at `pc` (40_execution_cycle.md R123). -/
theorem eq_bytesAtPc_of_fetch {s : State} {f : Fetched} (h : s.fetch = .ok f) : f = s.bytesAtPc := by
  by_cases hpc : s.pc.toNat ≤ 0xFD
  · rw [s.fetch_of_le hpc] at h
    cases h
    rfl
  · rw [s.fetch_of_gt (by omega)] at h
    cases h

end Sys2Proof.Machine

namespace Sys2Proof

open Machine Claims

/-- Settles O34, register by register. -/
theorem registersWrittenAreThoseNamed : Obligations.RegistersWrittenAreThoseNamed := by
  intro i s t h r hr
  rw [eq_executed_of_exec h]
  exact executed_x_of_not_mem_writes hr s

/-- Settles O35: the write of an unread register passes through the instruction, or is overwritten by it. -/
theorem registersReadAreThoseNamed : Obligations.RegistersReadAreThoseNamed := by
  intro i r v s t h hr
  obtain rfl := eq_executed_of_exec h
  refine ⟨fun hw => ?_, fun hw => ?_⟩
  · rw [exec_eq_executed, executed_setX_of_not_mem hr hw]
  · rw [exec_eq_executed, executed_setX_of_mem_writes hr hw]

/-- Settles O36: a fault keeps `fl`, and an instruction that changes it finds E clear. -/
theorem equalFlagIsNeverCleared : Obligations.EqualFlagIsNeverCleared := by
  refine ⟨fun i s t h hne => ?_, fun m s t h hE => ?_⟩
  · obtain rfl := eq_executed_of_exec h
    exact eq_cmp_of_executed_fl_ne hne
  · obtain ⟨-, ⟨-, rfl⟩ | ⟨-, r, -, rfl⟩ | ⟨-, i, -, hexec⟩⟩ := stepWith_cases h
    · rfl
    · rfl
    · obtain rfl := eq_executed_of_exec hexec
      by_contra hne
      have hclear : s.equal = false := (eq_cmp_of_executed_fl_ne hne).1
      exact Bool.false_ne_true (hclear.symm.trans hE)

/-- Settles O37: executed with another `fl`, an instruction leaves the same state with another `fl`. -/
theorem flagIsReadOnlyByJeqAndJne : Obligations.FlagIsReadOnlyByJeqAndJne := by
  intro i f s t u hjeq hjne ht hu
  obtain ⟨g, hg⟩ := executed_withFl hjeq hjne f s
  obtain rfl := eq_executed_of_exec ht
  have hu : u = (executed i s).withFl g := (eq_executed_of_exec hu).trans hg
  rw [hu]
  rfl

/-- Settles O38: a fault writes no memory, and an instruction that does is a PUSH or a CALL, with its byte at `pc`. -/
theorem memoryIsWrittenOnlyByPush : Obligations.MemoryIsWrittenOnlyByPush := by
  intro m s t h
  obtain ⟨-, ⟨-, rfl⟩ | ⟨-, r, -, rfl⟩ | ⟨-, i, hdec, hexec⟩⟩ := stepWith_cases h
  · exact ⟨fun _ _ => rfl, fun _ _ => rfl⟩
  · exact ⟨fun _ _ => rfl, fun _ _ => rfl⟩
  obtain rfl := eq_executed_of_exec hexec
  have hir : s.mem.read s.pc.toNat = m.byte i.mnemonic := (decode_eq_ok hdec).1
  obtain hmem | ⟨hi, v, hmem⟩ := executed_mem_cases i s
  · exact ⟨fun a _ => by rw [hmem], fun _ _ => hmem⟩
  · refine ⟨fun a ha => ?_, fun hpush hcall => ?_⟩
    · rw [hmem]
      exact Memory.read_write_of_ne s.mem v (List.ne_of_not_mem_cons ha)
    · obtain hi | hi := hi
      · exact absurd (hir.trans (congrArg m.byte hi)) hpush
      · exact absurd (hir.trans (congrArg m.byte hi)) hcall

/-- Settles O45: the bytes fetched are cells of the memory just written, read at the address written. -/
theorem storeIsSeenByTheNextFetch : Obligations.StoreIsSeenByTheNextFetch := by
  intro i a s t f hi hexec hfetch
  obtain rfl := eq_executed_of_exec hexec
  obtain rfl := eq_bytesAtPc_of_fetch hfetch
  have hstored : ∀ n, n = (s.x 7 - 1).toNat →
      (executed i s).mem.read n = if i = .push a then s.x a else (s.pc + 2).setWidth 8 := by
    rintro _ rfl
    rw [executed_mem_of_push_or_call hi, Memory.read_write_self]
  exact ⟨hstored _, hstored _, hstored _⟩

end Sys2Proof
end

section
/-! PROOF. Memory as data and as 256 cells (20_memory.md section 1, 70_reset_and_hazards.md section 2): the checked
accesses, the canonical form, and what placed bytes read as. -/

namespace Sys2Proof.Machine

theorem State.memWrite_of_ge (s : State) {a : Nat} (h : 256 ≤ a) (v : Byte) :
    s.memWrite a v = .error .addressError := by
  simp [State.memWrite, memSize, Nat.not_lt.mpr h]

/-- An entry of a memory with rising addresses is what its address reads as. -/
theorem Memory.read_of_mem {m : Memory} (h : m.Pairwise fun c d => c.1 < d.1) {c : Host.Cell} (hc : c ∈ m) :
    m.read c.1 = c.2 := by
  induction m with
  | nil => cases hc
  | cons d m ih =>
    obtain ⟨hd, hm⟩ := List.pairwise_cons.mp h
    rw [Memory.read_cons]
    obtain rfl | hc := List.mem_cons.mp hc
    · rw [if_pos rfl]
    · rw [if_neg (hd c hc).ne', ih hm hc]

/-- An address that does not read as the fill byte has an entry. -/
theorem Memory.mem_of_read_ne_fill {m : Memory} {a : Nat} (h : m.read a ≠ Memory.fill) : (a, m.read a) ∈ m := by
  induction m with
  | nil => exact absurd rfl h
  | cons c m ih =>
    rw [Memory.read_cons] at h ⊢
    split at h
    · rename_i ha
      rw [if_pos ha, ha]
      exact List.mem_cons_self
    · rename_i ha
      rw [if_neg ha]
      exact List.mem_cons_of_mem c (ih h)

/-- The entries of a memory in canonical form are the cells that do not read as the fill byte. -/
theorem Memory.mem_iff_read {m : Memory} (h : m.wf) {c : Host.Cell} :
    c ∈ m ↔ m.read c.1 = c.2 ∧ c.2 ≠ Memory.fill := by
  obtain ⟨hrising, hcells⟩ := h
  constructor
  · exact fun hc => ⟨Memory.read_of_mem hrising hc, (hcells c hc).2⟩
  · rintro ⟨hread, hne⟩
    have hmem := Memory.mem_of_read_ne_fill (m := m) (a := c.1) (hread ▸ hne)
    rwa [hread] at hmem

theorem Memory.nodup_of_wf {m : Memory} (h : m.wf) : m.Nodup :=
  h.1.imp fun hlt heq => hlt.ne (congrArg Prod.fst heq)

/-- Placed bytes are read from the first address on, and what was there before is read after them. -/
theorem Memory.read_place_add (m : Memory) {a : Nat} {bs : List Byte} (h : a + bs.length ≤ 256) (i : Nat) :
    (m.place a bs).read (a + i) = bs.getD i (m.read (a + i)) := by
  induction bs generalizing m a i with
  | nil => rfl
  | cons b bs ih =>
    rw [List.length_cons] at h
    have ha : a < memSize := by
      rw [memSize]
      omega
    rw [Memory.place, if_pos ha]
    cases i with
    | zero => exact (Memory.read_place_of_lt _ _ (Nat.lt_succ_self a)).trans (Memory.read_write_self m a b)
    | succ i =>
      rw [show a + (i + 1) = a + 1 + i by omega, ih (m.write a b) (by omega) i,
        Memory.read_write_of_ne m b (by omega), List.getD_cons_succ]

/-- The memory of a launch is the image and then the fill (70_reset_and_hazards.md R236). -/
theorem launchMemory_read {image : List Byte} (h : image.length ≤ 256) (a : Nat) :
    (launchMemory image).read a = image.getD a 0x00 := by
  have hplace := Memory.read_place_add [] (a := 0) (bs := image) (by omega) a
  rwa [Nat.zero_add] at hplace

/-- Three bytes placed at a fetchable `pc` are what a fetch sees. -/
theorem bytesAtPc_place {s : State} (hpc : s.pc.toNat ≤ 0xFD) {bs : List Byte} (hlen : bs.length = 3) :
    (s.setMem (s.mem.place s.pc.toNat bs)).bytesAtPc = Fetched.ofBytes bs := by
  have hread := Memory.read_place_add s.mem (a := s.pc.toNat) (bs := bs) (by omega)
  match bs, hlen with
  | [b0, b1, b2], _ =>
    exact bytesAtPc_eq (f := ⟨b0, b1, b2⟩) ⟨hread 0, hread 1, hread 2⟩

theorem State.readyToFetch_run (s : State) : s.readyToFetch.run = .running := by
  simp only [State.readyToFetch]
  by_cases hrun : s.run = .running
  · rw [if_pos hrun]
    split <;> exact hrun
  · rw [if_neg hrun]
    split <;> rfl

/-- A `pc` that cannot be fetched is replaced by one that can. -/
theorem State.ite_setPc_zero_pc_le (t : State) : (if t.pc.toNat ≤ 0xFD then t else t.setPc 0).pc.toNat ≤ 0xFD := by
  split
  · assumption
  · exact Nat.zero_le _

theorem State.readyToFetch_pc_le (s : State) : s.readyToFetch.pc.toNat ≤ 0xFD := State.ite_setPc_zero_pc_le _

/-- A table word that is an instruction is one by this machine's decoder. -/
theorem decode_of_decodeTableWord {nbits w : Nat} {i : Instr} (h : decodeTableWord nbits w = some i) :
    decode opcodes (Fetched.ofBytes (tableBytes nbits w)) = .ok i := by
  unfold decodeTableWord at h
  split at h
  · rename_i hdec
    cases h
    exact hdec
  · cases h

end Sys2Proof.Machine

namespace Sys2Proof

open Machine Claims

/-- Settles O9: the check splits at 256, and inside it a write is `Memory.write`. -/
theorem memoryAccessIsCheckedAndExact : Obligations.MemoryAccessIsCheckedAndExact := by
  intro s a v
  refine ⟨fun h => ⟨s.memRead_of_ge h, s.memWrite_of_ge h v⟩, fun h => ?_⟩
  have ha : a < 256 := by omega
  refine ⟨s.memRead_of_lt ha, _, s.memWrite_of_lt ha v, ?_, fun b hb => ?_, fun _ _ => rfl, rfl, rfl, ⟨rfl, rfl⟩, rfl⟩
  · rw [State.memRead_of_lt _ ha, State.setMem_mem, Memory.read_write_self]
  · exact Memory.read_write_of_ne s.mem v (List.ne_of_not_mem_cons hb)

/-- Settles O14: the entries are determined by the reads, and a rising list by its entries. -/
theorem canonicalMemoryIsUnique : Obligations.CanonicalMemoryIsUnique := by
  intro p q hp hq hread
  have hmem : ∀ c, c ∈ p ↔ c ∈ q := fun c => by rw [Memory.mem_iff_read hp, Memory.mem_iff_read hq, hread]
  have hperm : p.Perm q := (List.perm_ext_iff_of_nodup (Memory.nodup_of_wf hp) (Memory.nodup_of_wf hq)).mpr hmem
  exact hperm.eq_of_pairwise (fun c d _ _ hcd hdc => absurd hdc (lt_asymm hcd)) hp.1 hq.1

/-- Settles O49, value by value. -/
theorem resetValues : Obligations.ResetValues :=
  ⟨rfl, by decide, rfl, rfl, rfl, rfl, rfl, fun _ => rfl⟩

/-- Settles O50: a host reset is the reset state with the memory kept, and it is Running. -/
theorem hostResetLeavesOnlyMemory : Obligations.HostResetLeavesOnlyMemory := fun _ =>
  ⟨fun _ _ => rfl, fun _ _ => rfl, rfl, ⟨rfl, ⟨rfl, rfl⟩, rfl⟩, exists_stepWith_eq_next opcodes rfl⟩

/-- Settles O51: a launch is the reset state with the image placed in memory. -/
theorem launchHoldsTheImage : Obligations.LaunchHoldsTheImage := fun _ h =>
  ⟨launchMemory_read h, fun _ _ => rfl, rfl, rfl, ⟨rfl, rfl⟩, rfl⟩

/-- Settles O53: the state made ready fetches, and what it fetches is the word placed. -/
theorem placedWordIsExecutedNext : Obligations.PlacedWordIsExecutedNext := by
  intro s nbits w i hword
  have hbytes : (s.withFetchWord nbits w).bytesAtPc = Fetched.ofBytes (tableBytes nbits w) :=
    bytesAtPc_place s.readyToFetch_pc_le rfl
  refine stepWith_of_decode_ok s.readyToFetch_run s.readyToFetch_pc_le ?_
  rw [hbytes]
  exact decode_of_decodeTableWord hword

end Sys2Proof
end

section
/-! PROOF. The host's side (70_reset_and_hazards.md sections 2 and 3): the loader up to its first error, a load in
reset, and requests during a run. -/

namespace Sys2Proof.Machine

open Claims

/-- An empty line is skipped before it could be a literal. -/
theorem lineToken_ne_nil_of_literal {line : List Char} {b : Byte} (h : literal? (lineToken line) = some b) :
    lineToken line ≠ [] := by
  intro hnil
  rw [hnil] at h
  cases h

theorem loadLines_of_literal {line : List Char} {b : Byte} (h : literal? (lineToken line) = some b) {n : Nat}
    (hn : n < memSize) {rest : List (List Char)} {bs : List Byte} {e : Option LoadError}
    (hrest : loadLines (n + 1) rest = (bs, e)) : loadLines n (line :: rest) = (b :: bs, e) := by
  have hne : (lineToken line).isEmpty = false := List.isEmpty_eq_false_iff.mpr (lineToken_ne_nil_of_literal h)
  simp [loadLines, hne, h, hn, hrest]

theorem loadLines_of_not_literal {line : List Char} (h : literal? (lineToken line) = none) (hne : lineToken line ≠ [])
    (n : Nat) (rest : List (List Char)) : loadLines n (line :: rest) = ([], some .badLiteral) := by
  simp [loadLines, hne, h]

/-- A bad line ends the load with the bytes of the lines before it (70_reset_and_hazards.md R237). -/
theorem loadLines_append_bad {good : List (List Char)} {bytes : List Byte} {bad : List Char} {n : Nat}
    (hgood : good.map (fun l => literal? (lineToken l)) = bytes.map some) (hlen : n + bytes.length ≤ 256)
    (hbad : literal? (lineToken bad) = none) (hne : lineToken bad ≠ []) (rest : List (List Char)) :
    loadLines n (good ++ bad :: rest) = (bytes, some .badLiteral) := by
  induction good generalizing bytes n with
  | nil =>
    obtain rfl : bytes = [] := List.map_eq_nil_iff.mp hgood.symm
    exact loadLines_of_not_literal hbad hne n rest
  | cons line good ih =>
    cases bytes with
    | nil => cases hgood
    | cons b bytes =>
      obtain ⟨hline, hgood⟩ := List.cons.inj hgood
      rw [List.length_cons] at hlen
      have hn : n < memSize := by
        rw [memSize]
        omega
      exact loadLines_of_literal hline hn (ih hgood (by omega))

theorem Session.loadText_of_loadLines (s : Session) {lines : List (List Char)} {bytes : List Byte}
    {e : Option LoadError} (h : loadLines 0 lines = (bytes, e)) :
    s.loadText lines = (s.load bytes).map fun t => (t, e) := by
  simp only [Session.loadText, h]

/-- A load in reset sets memory to the image and nothing else (70_reset_and_hazards.md R236, R240). -/
theorem Session.load_of_inReset {s : Session} (hs : s.phase = .inReset) {image : List Byte}
    (h : image.length ≤ 256) :
    ∃ t, s.load image = some t ∧ t.phase = .inReset ∧ (∀ a, t.core.mem.read a = image.getD a 0x00) ∧
      RegsKept s.core t.core [] ∧ t.core.pc = s.core.pc ∧ ControlKept s.core t.core := by
  obtain ⟨phase, core⟩ := s
  obtain rfl : phase = .inReset := hs
  exact ⟨_, Session.load_inReset core image, rfl, launchMemory_read h, fun _ _ => rfl, rfl, rfl, ⟨rfl, rfl⟩, rfl⟩

/-- The report of a run, by the run state it ended in (60_exceptions.md R207). -/
theorem State.report_iff (s : State) :
    (s.report = none ↔ s.run = .running) ∧ (s.report = some (.ok ()) ↔ s.run = .halted) ∧
      (s.report = some (.error s.err) ↔ s.run = .faulted) := by
  cases h : s.run <;> simp [State.report, h]

/-- In a launched session a request other than a reset and a start is answered by steps of the CORE, or not at all
(70_reset_and_hazards.md R240). -/
theorem Session.request_launched {r : Request} (hreset : r ≠ .reset) (hstart : r ≠ .start) (c : State) :
    ∃ n, (Session.request ⟨.launched, c⟩ r).getD ⟨.launched, c⟩ = ⟨.launched, runFor n c⟩ := by
  cases r with
  | reset => exact absurd rfl hreset
  | start => exact absurd rfl hstart
  | run fuel => exact ⟨fuel, rfl⟩
  | load | loadText | inspect => exact ⟨0, rfl⟩

/-- Such requests one after the other are steps after steps. -/
theorem Session.serve_launched {rs : List Request} (h : ∀ r ∈ rs, r ≠ .reset ∧ r ≠ .start) (c : State) :
    ∃ n, Session.serve ⟨.launched, c⟩ rs = ⟨.launched, runFor n c⟩ := by
  induction rs generalizing c with
  | nil => exact ⟨0, rfl⟩
  | cons r rs ih =>
    obtain ⟨⟨hreset, hstart⟩, hrest⟩ := List.forall_mem_cons.mp h
    obtain ⟨n, hn⟩ := Session.request_launched hreset hstart c
    obtain ⟨k, hk⟩ := ih hrest (runFor n c)
    exact ⟨n + k, by rw [Session.serve, hn, hk, runFor_add]⟩

end Sys2Proof.Machine

namespace Sys2Proof

open Machine Claims

/-- Settles O52: the loader stops at the bad line, and what it has is loaded as those bytes are. -/
theorem loadErrorKeepsTheLoadedBytes : Obligations.LoadErrorKeepsTheLoadedBytes := by
  intro good bytes bad rest s hgood hlen hbad hne hs
  obtain ⟨t, hload, hloaded⟩ := Session.load_of_inReset hs hlen
  have hlines := loadLines_append_bad (n := 0) hgood (by omega) hbad hne rest
  refine ⟨t, hload, ?_, hloaded⟩
  rw [s.loadText_of_loadLines hlines, hload, Option.map_some]

/-- Settles O54: the host's table, phase by phase. -/
theorem hostInteractionsAreAllowedAsTabled : Obligations.HostInteractionsAreAllowedAsTabled := by
  refine ⟨fun _ _ hs h => Session.load_of_inReset hs h, ?_, ?_, ?_, fun _ _ => ⟨rfl, rfl, rfl⟩, fun _ _ => ⟨rfl, rfl⟩⟩
  · rintro ⟨_, c⟩ image lines rfl
    exact ⟨rfl, rfl⟩
  · rintro ⟨_, c⟩ fuel rfl
    rfl
  · rintro ⟨_, c⟩ fuel rfl
    exact ⟨_, _, Session.run_launched c fuel, rfl, rfl, (runFor fuel c).report_iff⟩

/-- Settles O55, by induction on the requests. -/
theorem hostCannotDisturbARun : Obligations.HostCannotDisturbARun := by
  rintro rs ⟨_, c⟩ rfl hrs
  exact Session.serve_launched hrs c

end Sys2Proof
end
